-- ==== Sys2Proof/Word.lean ====
section
/-! DEFINITION. The two word types of the block: unsigned bytes and unsigned 16-bit integers (rules R9, R11). -/

namespace Sys2Proof

/-- `u8` of rule R11: an unsigned 8-bit integer, the element of every byte sequence. -/
abbrev Byte := BitVec 8

/-- `u16` of rule R11: an unsigned 16-bit integer. -/
abbrev U16 := BitVec 16

end Sys2Proof
end

