-- ==== Sys2Proof/Config.lean ====
section
/-! DEFINITION. The block's open parameters (rule R10), as constants with no body: nothing in Lean can see their
values, so a statement about them holds for every value the rule allows. -/

namespace Sys2Proof

/-- What the platform's sequence capacity has above the floor of rule R10. -/
opaque Config.seqCapExtra : Nat

/-- What the platform's list capacity has above the floor of rule R10. -/
opaque Config.listCapExtra : Nat

/-- `IN_CAP` for byte sequences: any natural number of at least 259 (rules R10, R42).
DEDUCED: the rule gives sequences and lists floors of their own, so each has its own capacity (log entry 2). -/
def Config.seqCap : Nat := Config.seqCapExtra + 259

/-- `IN_CAP` for operand lists: any natural number of at least 1969 (rules R10, R42). -/
def Config.listCap : Nat := Config.listCapExtra + 1969

/-- Rule R42 for a sequence of `n` bytes: at most `IN_CAP`. The floor, which every platform accepts, is asked first,
so that ordinary operands are accepted by computation. -/
def Config.seqWithin (n : Nat) : Bool := decide (n ≤ 259) || decide (n ≤ Config.seqCap)

/-- Rule R42 for a list of `n` elements: at most `IN_CAP`, the floor asked first. -/
def Config.listWithin (n : Nat) : Bool := decide (n ≤ 1969) || decide (n ≤ Config.listCap)

/-- The seed generator of the transaction id: one unconstrained draw for each number (rule R250). -/
opaque Config.seedDraw : Nat → Nat

/-- `tid0` of rules R10 and R250: the `k`-th draw, constrained to [1, 0xFFFE] and to nothing else (log entry 1). -/
def Config.tid0 (k : Nat) : U16 := BitVec.ofNat 16 (Config.seedDraw k % 0xFFFE + 1)

/-- What the TID flip-flops hold while the block has no state (rules R33, R252): nothing constrains it and
no step reads it (log entry 4). -/
opaque Config.unseededTid : Nat → U16

/-- `PLACEHOLDER` of rule R10: the character `formatHex` repeats for input that is not a number (rule R111). -/
opaque Config.placeholder : Char

end Sys2Proof
end

