-- ==== Sys2Proof/Syntax.lean ====
section
/-! DEFINITION. What the host can say to the block: the operand records, the command port's request, the host's
events, and `Instr`, one constructor for each row of the opcode table. -/

namespace Sys2Proof

/-- The two transports (rule R2); the M bit of a descriptor (rule R60). -/
inductive Mode where
  | rtu
  | tcp
  deriving DecidableEq, Repr

/-- The eight function codes to which the block gives meaning (rules R2, R76). -/
inductive FnCode where
  | readCoils
  | readDiscreteInputs
  | readHoldingRegisters
  | readInputRegisters
  | writeSingleCoil
  | writeSingleRegister
  | writeMultipleCoils
  | writeMultipleRegisters
  deriving DecidableEq, Repr

/-- The set SUPPORTED of rule R130, as function code bytes (rule R2). -/
def supportedCodes : List Byte := [0x01, 0x02, 0x03, 0x04, 0x05, 0x06, 0x0F, 0x10]

/-- The operand record of VALIDATE and ENCODE (rule R63). An omitted field is 0 or empty (rule R81). -/
structure Params where
  unit : Byte := 0
  fc : Byte := 0
  addr : U16 := 0
  qty : U16 := 0
  value : U16 := 0
  coils : List Bool := []
  regs : List U16 := []
  deriving DecidableEq, Repr

/-- What the command port takes at issue (rules R55, R60 to R65): the descriptor and the operands. A CRC16 or DECODE
command reads `bytes`; a VALIDATE or ENCODE command reads `params`; the other is not looked at. -/
structure Request where
  cmd : Byte
  bytes : List Byte := []
  params : Params := Params.mk 0 0 0 0 0 [] []
  deriving DecidableEq, Repr

/-- What the outside world can do to the block (rules R6, R250, R33): issue a command, reset it, cut its power. -/
inductive HostEvent where
  | command (r : Request)
  | reset
  | powerLoss
  deriving DecidableEq, Repr

/-- The fields a READ shape uses beside the unit id (rules R64, R76: 0x01 to 0x04). -/
structure ReadFields where
  addr : U16
  qty : U16
  deriving DecidableEq, Repr

/-- The fields a WRITE1 shape uses beside the unit id (rules R64, R76: 0x05, 0x06). -/
structure WriteOneFields where
  addr : U16
  value : U16
  deriving DecidableEq, Repr

/-- The fields of 0x0F beside the unit id (rules R64, R76). -/
structure WriteCoilsFields where
  addr : U16
  qty : U16
  coils : List Bool
  deriving DecidableEq, Repr

/-- The fields of 0x10 beside the unit id (rules R64, R76). -/
structure WriteRegsFields where
  addr : U16
  qty : U16
  regs : List U16
  deriving DecidableEq, Repr

/-- All the fields beside unit id and function code: what stands in a record whose code is unsupported. -/
structure RecordFields where
  addr : U16
  qty : U16
  value : U16
  coils : List Bool
  regs : List U16
  deriving DecidableEq, Repr

/-- The bytes of a frame around its PDU (rules R69, R70): unit id and CRC for RTU, the MBAP header for TCP. -/
inductive FrameShell where
  | rtu (unit crcLo crcHi : Byte)
  | tcp (tid proto len : U16) (unit : Byte)
  deriving DecidableEq, Repr

/-- The three things the block does with a PDU of one function code: check its fields (rules R131 to R136), build it
and wrap it (rules R151 to R158), or read it out of a frame (rules R186 to R196). -/
inductive PduUse (α : Type) where
  | validate (m : Mode) (unit : Byte) (fields : α)
  | encode (m : Mode) (unit : Byte) (fields : α)
  | decode (shell : FrameShell) (body : List Byte)
  deriving DecidableEq, Repr

/-- The rows of the opcode table: the seven commands of the port (rule R61), then the function code layouts, each as
what a command does when it meets that function code (rules R64, R76). Log entry 3 says how the two layers meet. -/
inductive Instr where
  | crc16 (data : List Byte)
  | validateRtu (p : Params)
  | encodeRtu (p : Params)
  | decodeRtu (frame : List Byte)
  | validateTcp (p : Params)
  | encodeTcp (p : Params)
  | decodeTcp (frame : List Byte)
  | fc01ReadCoils (u : PduUse ReadFields)
  | fc02ReadDiscreteInputs (u : PduUse ReadFields)
  | fc03ReadHoldingRegisters (u : PduUse ReadFields)
  | fc04ReadInputRegisters (u : PduUse ReadFields)
  | fc05WriteSingleCoil (u : PduUse WriteOneFields)
  | fc06WriteSingleRegister (u : PduUse WriteOneFields)
  | fc0FWriteMultipleCoils (u : PduUse WriteCoilsFields)
  | fc10WriteMultipleRegisters (u : PduUse WriteRegsFields)
  | fcUnknown (fc : Byte) (u : PduUse RecordFields)
  deriving DecidableEq, Repr

end Sys2Proof
end

