-- ==== Sys2Proof/WellFormed.lean ====
section
/-! DEFINITION. When an instruction term is one the block accepts: its operands fit the platform's capacity
(rules R42, R62, R63, R65), and an `fcUnknown` term names a code no other row names (the table's priority, rule R77). -/

namespace Sys2Proof

/-- The number of bytes a frame has beside the body of its PDU: the shell and the function code byte. -/
def FrameShell.overhead : FrameShell → Nat
  | .rtu _ _ _ => 4
  | .tcp _ _ _ _ => 8

/-- Rule R42 for the two lists of a parameter record. -/
def listsWithinCap (coils : List Bool) (regs : List U16) : Bool :=
  Config.listWithin coils.length && Config.listWithin regs.length

/-- Rule R42 for one use of a PDU; `lists` says that the record's own lists fit. -/
def PduUse.wellFormed {α : Type} (lists : α → Bool) : PduUse α → Bool
  | .validate _ _ f => lists f
  | .encode _ _ f => lists f
  | .decode sh body => Config.seqWithin (sh.overhead + body.length)

/-- The check of an instruction term. -/
def Instr.wellFormed : Instr → Bool
  | .crc16 data => Config.seqWithin data.length
  | .validateRtu p => listsWithinCap p.coils p.regs
  | .encodeRtu p => listsWithinCap p.coils p.regs
  | .decodeRtu frame => Config.seqWithin frame.length
  | .validateTcp p => listsWithinCap p.coils p.regs
  | .encodeTcp p => listsWithinCap p.coils p.regs
  | .decodeTcp frame => Config.seqWithin frame.length
  | .fc01ReadCoils u => u.wellFormed fun _ => true
  | .fc02ReadDiscreteInputs u => u.wellFormed fun _ => true
  | .fc03ReadHoldingRegisters u => u.wellFormed fun _ => true
  | .fc04ReadInputRegisters u => u.wellFormed fun _ => true
  | .fc05WriteSingleCoil u => u.wellFormed fun _ => true
  | .fc06WriteSingleRegister u => u.wellFormed fun _ => true
  | .fc0FWriteMultipleCoils u => u.wellFormed fun f => listsWithinCap f.coils []
  | .fc10WriteMultipleRegisters u => u.wellFormed fun f => listsWithinCap [] f.regs
  | .fcUnknown fc u => !supportedCodes.contains fc && u.wellFormed fun f => listsWithinCap f.coils f.regs

/-- The instruction is well formed. -/
abbrev WellFormed (i : Instr) : Prop := i.wellFormed = true

end Sys2Proof
end

