-- ==== Sys2Proof/Decode.lean ====
section
/-! DEFINITION. The two decoders of the opcode table, the command descriptor's (rules R60, R61) and the function
code's (rule R76), the encoder of both, and the byte-order helpers of rules R12 and R71. -/

namespace Sys2Proof

/-- `hi8` of rule R12: bits 15 to 8. -/
def hi8 (v : U16) : Byte := v.extractLsb' 8 8

/-- `lo8` of rule R12: bits 7 to 0. -/
def lo8 (v : U16) : Byte := v.extractLsb' 0 8

/-- Rule R71, reading: two bytes, high byte first. -/
def be16 (h l : Byte) : U16 := (h.setWidth 16 <<< 8) ||| l.setWidth 16

/-- Rule R44, reading: two bytes, low byte first. -/
def le16 (l h : Byte) : U16 := l.setWidth 16 ||| (h.setWidth 16 <<< 8)

/-- Rule R71, writing: a 16-bit field, high byte first (rule R43). -/
def be16Bytes (v : U16) : List Byte := [hi8 v, lo8 v]

/-- The function code byte of each of the eight codes (rule R76, decimal 15 and 16 by conflict C5). -/
def FnCode.toByte : FnCode → Byte
  | .readCoils => 0x01
  | .readDiscreteInputs => 0x02
  | .readHoldingRegisters => 0x03
  | .readInputRegisters => 0x04
  | .writeSingleCoil => 0x05
  | .writeSingleRegister => 0x06
  | .writeMultipleCoils => 0x0F
  | .writeMultipleRegisters => 0x10

/-- The function code a byte names, if any (rules R76, R77). -/
def FnCode.ofByte (b : Byte) : Option FnCode :=
  if b = 0x01 then some .readCoils
  else if b = 0x02 then some .readDiscreteInputs
  else if b = 0x03 then some .readHoldingRegisters
  else if b = 0x04 then some .readInputRegisters
  else if b = 0x05 then some .writeSingleCoil
  else if b = 0x06 then some .writeSingleRegister
  else if b = 0x0F then some .writeMultipleCoils
  else if b = 0x10 then some .writeMultipleRegisters
  else none

/-- Why the port does not accept a descriptor (rule R61). -/
inductive DecodeError where
  /-- a nonzero bit in cmd[7:3] -/
  | reservedBits (cmd : Byte)
  /-- CRC16 with M = 1: CRC16 has no mode -/
  | crc16WithMode (cmd : Byte)
  deriving DecidableEq, Repr

/-- `OP`, cmd[1:0] of rule R60. -/
def Request.op (r : Request) : Nat := (r.cmd.extractLsb' 0 2).toNat

/-- `M`, cmd[2] of rule R60. -/
def Request.mode (r : Request) : Mode := if r.cmd.getLsbD 2 then .tcp else .rtu

/-- The descriptor decoder (rules R60, R61), total on every request; a reserved descriptor is rejected by name. -/
def decode (r : Request) : Except DecodeError Instr :=
  if r.cmd.extractLsb' 3 5 = 0 then
    match r.op, r.mode with
    | 0, .rtu => .ok (.crc16 r.bytes)
    | 0, .tcp => .error (.crc16WithMode r.cmd)
    | 1, .rtu => .ok (.validateRtu r.params)
    | 1, .tcp => .ok (.validateTcp r.params)
    | 2, .rtu => .ok (.encodeRtu r.params)
    | 2, .tcp => .ok (.encodeTcp r.params)
    | _, .rtu => .ok (.decodeRtu r.bytes)
    | _, .tcp => .ok (.decodeTcp r.bytes)
  else .error (.reservedBits r.cmd)

/-- The frame a shell and a PDU make up (rules R69, R70). -/
def FrameShell.frame (fc : Byte) (body : List Byte) : FrameShell → List Byte
  | .rtu unit crcLo crcHi => [unit, fc] ++ body ++ [crcLo, crcHi]
  | .tcp tid proto len unit => be16Bytes tid ++ be16Bytes proto ++ be16Bytes len ++ [unit, fc] ++ body

/-- The mode of a shell. -/
def FrameShell.mode : FrameShell → Mode
  | .rtu _ _ _ => .rtu
  | .tcp _ _ _ _ => .tcp

/-- An RTU frame of at least 4 bytes taken apart: function code, shell, the bytes between (rule R69). -/
def splitRtu : List Byte → Option (Byte × FrameShell × List Byte)
  | unit :: fc :: rest =>
    if 2 ≤ rest.length then
      some (fc, .rtu unit (rest.getD (rest.length - 2) 0) (rest.getD (rest.length - 1) 0),
        rest.take (rest.length - 2))
    else none
  | _ => none

/-- A TCP frame of at least 8 bytes taken apart: function code, MBAP header, the bytes after (rule R70). -/
def splitTcp : List Byte → Option (Byte × FrameShell × List Byte)
  | t1 :: t0 :: p1 :: p0 :: l1 :: l0 :: unit :: fc :: body =>
    some (fc, .tcp (be16 t1 t0) (be16 p1 p0) (be16 l1 l0) unit, body)
  | _ => none

/-- The function code row a parameter record meets (rules R64, R76); `mk` is the command, unit id fixed. -/
def rowOfParams (p : Params) (mk : {α : Type} → α → PduUse α) : Instr :=
  match FnCode.ofByte p.fc with
  | some .readCoils => .fc01ReadCoils (mk ⟨p.addr, p.qty⟩)
  | some .readDiscreteInputs => .fc02ReadDiscreteInputs (mk ⟨p.addr, p.qty⟩)
  | some .readHoldingRegisters => .fc03ReadHoldingRegisters (mk ⟨p.addr, p.qty⟩)
  | some .readInputRegisters => .fc04ReadInputRegisters (mk ⟨p.addr, p.qty⟩)
  | some .writeSingleCoil => .fc05WriteSingleCoil (mk ⟨p.addr, p.value⟩)
  | some .writeSingleRegister => .fc06WriteSingleRegister (mk ⟨p.addr, p.value⟩)
  | some .writeMultipleCoils => .fc0FWriteMultipleCoils (mk ⟨p.addr, p.qty, p.coils⟩)
  | some .writeMultipleRegisters => .fc10WriteMultipleRegisters (mk ⟨p.addr, p.qty, p.regs⟩)
  | none => .fcUnknown p.fc (mk ⟨p.addr, p.qty, p.value, p.coils, p.regs⟩)

/-- The function code row a frame's function code byte selects (rules R76, R185, R196). -/
def rowOfFrame (fc : Byte) (shell : FrameShell) (body : List Byte) : Instr :=
  match FnCode.ofByte fc with
  | some .readCoils => .fc01ReadCoils (.decode shell body)
  | some .readDiscreteInputs => .fc02ReadDiscreteInputs (.decode shell body)
  | some .readHoldingRegisters => .fc03ReadHoldingRegisters (.decode shell body)
  | some .readInputRegisters => .fc04ReadInputRegisters (.decode shell body)
  | some .writeSingleCoil => .fc05WriteSingleCoil (.decode shell body)
  | some .writeSingleRegister => .fc06WriteSingleRegister (.decode shell body)
  | some .writeMultipleCoils => .fc0FWriteMultipleCoils (.decode shell body)
  | some .writeMultipleRegisters => .fc10WriteMultipleRegisters (.decode shell body)
  | none => .fcUnknown fc (.decode shell body)

/-- The function code decoder (rule R76): which function code row a request exercises. None for CRC16, for a
descriptor the port refuses, and for a frame that ends before its function code can be read. -/
def decodeFc (r : Request) : Option Instr :=
  match decode r with
  | .ok (.validateRtu p) => some (rowOfParams p (PduUse.validate .rtu p.unit))
  | .ok (.validateTcp p) => some (rowOfParams p (PduUse.validate .tcp p.unit))
  | .ok (.encodeRtu p) => some (rowOfParams p (PduUse.encode .rtu p.unit))
  | .ok (.encodeTcp p) => some (rowOfParams p (PduUse.encode .tcp p.unit))
  | .ok (.decodeRtu f) => (splitRtu f).map fun x => rowOfFrame x.1 x.2.1 x.2.2
  | .ok (.decodeTcp f) => (splitTcp f).map fun x => rowOfFrame x.1 x.2.1 x.2.2
  | _ => none

/-- The descriptors of rule R61 that carry a parameter record. -/
def validateCmd : Mode → Byte
  | .rtu => 0x01
  | .tcp => 0x05

/-- The descriptors of ENCODE (rule R61). -/
def encodeCmd : Mode → Byte
  | .rtu => 0x02
  | .tcp => 0x06

/-- The descriptors of DECODE (rule R61). -/
def decodeCmd : Mode → Byte
  | .rtu => 0x03
  | .tcp => 0x07

/-- The request in which a function code row is met: `record` puts its fields in a record (ignored fields omitted). -/
def PduUse.request {α : Type} (fc : Byte) (record : Byte → α → Params) : PduUse α → Request
  | .validate m unit f => Request.mk (validateCmd m) [] (record unit f)
  | .encode m unit f => Request.mk (encodeCmd m) [] (record unit f)
  | .decode sh body => Request.mk (decodeCmd sh.mode) (sh.frame fc body) (Params.mk 0 0 0 0 0 [] [])

/-- The record of a READ shape (rules R64, R81). -/
def readParams (fc unit : Byte) (f : ReadFields) : Params := Params.mk unit fc f.addr f.qty 0 [] []

/-- The record of a WRITE1 shape (rules R64, R81). -/
def writeOneParams (fc unit : Byte) (f : WriteOneFields) : Params := Params.mk unit fc f.addr 0 f.value [] []

/-- The record of 0x0F (rules R64, R81). -/
def writeCoilsParams (unit : Byte) (f : WriteCoilsFields) : Params := Params.mk unit 0x0F f.addr f.qty 0 f.coils []

/-- The record of 0x10 (rules R64, R81). -/
def writeRegsParams (unit : Byte) (f : WriteRegsFields) : Params := Params.mk unit 0x10 f.addr f.qty 0 [] f.regs

/-- The record of a function code that is not one of the eight (rule R77). -/
def otherParams (fc unit : Byte) (f : RecordFields) : Params :=
  Params.mk unit fc f.addr f.qty f.value f.coils f.regs

/-- The encoder: the request in which the host passes an instruction (rules R61 to R65, R68 to R70). -/
def encode : Instr → Request
  | .crc16 data => Request.mk 0x00 data (Params.mk 0 0 0 0 0 [] [])
  | .validateRtu p => Request.mk 0x01 [] p
  | .encodeRtu p => Request.mk 0x02 [] p
  | .decodeRtu frame => Request.mk 0x03 frame (Params.mk 0 0 0 0 0 [] [])
  | .validateTcp p => Request.mk 0x05 [] p
  | .encodeTcp p => Request.mk 0x06 [] p
  | .decodeTcp frame => Request.mk 0x07 frame (Params.mk 0 0 0 0 0 [] [])
  | .fc01ReadCoils u => u.request 0x01 (readParams 0x01)
  | .fc02ReadDiscreteInputs u => u.request 0x02 (readParams 0x02)
  | .fc03ReadHoldingRegisters u => u.request 0x03 (readParams 0x03)
  | .fc04ReadInputRegisters u => u.request 0x04 (readParams 0x04)
  | .fc05WriteSingleCoil u => u.request 0x05 (writeOneParams 0x05)
  | .fc06WriteSingleRegister u => u.request 0x06 (writeOneParams 0x06)
  | .fc0FWriteMultipleCoils u => u.request 0x0F writeCoilsParams
  | .fc10WriteMultipleRegisters u => u.request 0x10 writeRegsParams
  | .fcUnknown fc u => u.request fc (otherParams fc)

/-- The instruction is a command of the port (the first seven rows of the table). -/
def Instr.isCommand : Instr → Bool
  | .crc16 _ => true
  | .validateRtu _ => true
  | .encodeRtu _ => true
  | .decodeRtu _ => true
  | .validateTcp _ => true
  | .encodeTcp _ => true
  | .decodeTcp _ => true
  | .fc01ReadCoils _ => false
  | .fc02ReadDiscreteInputs _ => false
  | .fc03ReadHoldingRegisters _ => false
  | .fc04ReadInputRegisters _ => false
  | .fc05WriteSingleCoil _ => false
  | .fc06WriteSingleRegister _ => false
  | .fc0FWriteMultipleCoils _ => false
  | .fc10WriteMultipleRegisters _ => false
  | .fcUnknown _ _ => false

/-- The body of zeros a PDU layout has after its function code byte (rule R68), byte count 0. -/
def zeroBody : FnCode → List Byte
  | .writeMultipleCoils => [0, 0, 0, 0, 0]
  | .writeMultipleRegisters => [0, 0, 0, 0, 0]
  | _ => [0, 0, 0, 0]

/-- A word of the opcode table as a request, every operand bit above it 0. The table numbers its two layers in one
column, so a byte may stand in both: it is a descriptor where rule R61 accepts it as one, and else, where rule R76
gives it as a function code, the first byte of a PDU, which the block reads in a DECODE frame (log entry 3). -/
def tableRequest (w : Nat) : Request :=
  let cmd : Request := Request.mk (BitVec.ofNat 8 w) [] (Params.mk 0 0 0 0 0 [] [])
  match decode cmd, FnCode.ofByte cmd.cmd with
  | .error _, some f =>
    Request.mk (decodeCmd .tcp) ((FrameShell.tcp 0 0 0 0).frame f.toByte (zeroBody f)) (Params.mk 0 0 0 0 0 [] [])
  | _, _ => cmd

/-- What the decoders read from a word of the opcode table: the descriptor decoder's answer where it accepts the
byte, else the function code decoder's; a word of more than one byte is no descriptor (rule R60). -/
def decodeTableWord (nbits w : Nat) : Option Instr :=
  if w < 256 ∧ nbits ≤ 8 then
    match decode (Request.mk (BitVec.ofNat 8 w) [] (Params.mk 0 0 0 0 0 [] [])) with
    | .ok i => some i
    | .error _ => if (FnCode.ofByte (BitVec.ofNat 8 w)).isSome then decodeFc (tableRequest w) else none
  else none

end Sys2Proof
end

