-- ==== Sys2Proof/Machine/State.lean ====
section
/-! DEFINITION. The block's state, its results, and the reasons for which it stops. -/

namespace Sys2Proof.Machine

/-- The fourteen kinds of rule R198. -/
inductive Kind where
  | slaveID
  | transID
  | protoID
  | length
  | unitID
  | func
  | addr
  | qty
  | value
  | byteCount
  | coilData
  | regValue
  | data
  | crc
  deriving DecidableEq, Repr

/-- A segment of a decoded frame (rule R181). -/
structure Segment where
  kind : Kind
  off : Nat
  len : Nat
  value : Option U16
  deriving DecidableEq, Repr

/-- A raised status with its info (rules R220 to R222); only PARAM_INVALID carries info, its mask. -/
inductive Raise where
  | unsupportedFc
  | paramInvalid (mask : Byte)
  | incompleteHeader
  | missingFunctionCode
  | truncated
  deriving DecidableEq, Repr

/-- The value a command returns with status OK (rule R66); VALIDATE returns none. -/
inductive Value where
  | crc (c : U16)
  | valid
  | adu (bytes : List Byte)
  | segments (segs : List Segment)
  deriving DecidableEq, Repr

/-- The result record of a command (rule R66): a value with status OK, or a raised status and no value. -/
inductive Result where
  | ok (v : Value)
  | raised (r : Raise)
  deriving DecidableEq, Repr

/-- The machine: the block's one register, and the command port around it.

`tid` is all the persistent state the block has (rules R21, R22); `seeded` says that a reset has completed since power
came on, without which the block has no state (rules R33, R252). The rest is the model's own, not the block's:
`inbox` holds the host's events not yet taken, oldest first (rule R48), `outbox` the results returned, oldest first
(rule R260), `draws` numbers the free values drawn at resets and power losses (rule R250). -/
structure State where
  tid : U16
  seeded : Bool
  draws : Nat
  inbox : List HostEvent
  outbox : List Result
  deriving DecidableEq, Repr

/-- Why the machine stops. -/
inductive Fault where
  /-- Raised by `fetch` for a command before the first reset after power on: the block has no state and the spec no
  step (rule R252, entry I11 `stuck`). Safe: nothing is claimed of such a run. -/
  | commandBeforeReset
  deriving DecidableEq, Repr

/-- Why a command is refused (rule R226): the block gives it no meaning, performs no step and returns no status. -/
inductive Refusal where
  /-- Raised by an arm of `exec` for an instruction without a meaning; no arm raises it. Safe. -/
  | notModelled (mnemonic : String)
  /-- Raised by `fetch` for a descriptor that is not one of the seven of rule R61. Safe: the spec refuses it. -/
  | descriptor (e : DecodeError)
  /-- Raised by `perform` for an operand sequence or list longer than `IN_CAP` (rule R42). Safe: the spec refuses it. -/
  | operandTooLong
  deriving DecidableEq, Repr

/-- What taking the next event of the host leads to. -/
inductive Fetched where
  | idle
  | done (s : State)
  | stuck (f : Fault)
  | refuse (r : Refusal)
  | run (i : Instr) (s : State)
  deriving DecidableEq, Repr

/-- The machine right after its first reset (rules R32, R250, R251): TID at the draw `tid0`, nothing else to set;
no command has been issued and none has returned. -/
def State.reset : State where
  tid := Config.tid0 0
  seeded := true
  draws := 1
  inbox := []
  outbox := []

end Sys2Proof.Machine
end

