-- ==== Sys2Proof/Machine/Operands.lean ====
section
/-! DEFINITION. How a command reads its operands: the capacity of the port (rule R42) and the reads of an operand
frame (rules R181, R182). There are no register or address operands (rules R20, R40). -/

namespace Sys2Proof.Machine

/-- Rule R42 for a byte sequence. -/
def seqFits (b : List Byte) : Bool := Config.seqWithin b.length

/-- Rule R42 for the two lists of a record. -/
def listsFit (coils : List Bool) (regs : List U16) : Bool :=
  Config.listWithin coils.length && Config.listWithin regs.length

/-- Rule R42 for a parameter record: both lists, whichever of them the function code uses (log entry 5). -/
def paramsFit (p : Params) : Bool := listsFit p.coils p.regs

/-- `rd8(k)` of rule R182, used where the bound has been checked. -/
def rd8 (frame : List Byte) (k : Nat) : Byte := frame.getD k 0

/-- `rd16(k)` of rule R182, high byte first. -/
def rd16 (frame : List Byte) (k : Nat) : U16 := be16 (rd8 frame k) (rd8 frame (k + 1))

/-- The value of a segment of a field kind (rule R181): one byte, or two bytes high byte first. -/
def fieldValue (frame : List Byte) (off len : Nat) : U16 :=
  if len = 1 then (rd8 frame off).setWidth 16 else rd16 frame off

/-- The value of a segment by its kind (rule R181). -/
def segmentValue (frame : List Byte) (kind : Kind) (off len : Nat) : Option U16 :=
  match kind with
  | .crc => some (le16 (rd8 frame off) (rd8 frame (off + 1)))
  | .data => none
  | _ => some (fieldValue frame off len)

/-- The segment of a kind at a place of the frame (rule R181). -/
def segmentAt (frame : List Byte) (kind : Kind) (off len : Nat) : Segment :=
  Segment.mk kind off len (segmentValue frame kind off len)

end Sys2Proof.Machine
end

