-- ==== Sys2Proof/Machine/Flags.lean ====
section
/-! DEFINITION. The block has no status flags (rule R24). What it computes bit by bit is the violation mask of a
parameter record (rules R131 to R138) and the status code of a result (rule R221). -/

namespace Sys2Proof.Machine

/-- Bit UNIT of the mask (rule R137). -/
def maskUnit : Byte := 0x01
/-- Bit ADDR of the mask (rule R137). -/
def maskAddr : Byte := 0x02
/-- Bit QTY of the mask (rule R137). -/
def maskQty : Byte := 0x04
/-- Bit VALUE of the mask (rule R137). -/
def maskValue : Byte := 0x08
/-- Bit LIST of the mask (rule R137). -/
def maskList : Byte := 0x10

/-- A mask bit, set when its check fails. -/
def violation (bit : Byte) (passes : Bool) : Byte := if passes then 0 else bit

/-- Rule R138: the unit id in [0, 255]; no typed operand fails it. -/
def checkUnit (unit : Byte) : Byte := violation maskUnit (decide (unit.toNat ≤ 255))

/-- The address check of rules R131 to R136: in [0, 65535]; no typed operand fails it. -/
def checkAddr (addr : U16) : Byte := violation maskAddr (decide (addr.toNat ≤ 65535))

/-- The quantity check of rules R131, R132, R135, R136: in [1, `most`]. -/
def checkQty (most : Nat) (qty : U16) : Byte :=
  violation maskQty (decide (1 ≤ qty.toNat) && decide (qty.toNat ≤ most))

/-- Rule R133: a coil's value is 0xFF00 or 0x0000. -/
def checkCoilValue (value : U16) : Byte := violation maskValue (decide (value = 0xFF00) || decide (value = 0x0000))

/-- Rule R134: a register's value in [0, 65535]; no typed operand fails it. -/
def checkRegValue (value : U16) : Byte := violation maskValue (decide (value.toNat ≤ 65535))

/-- The list check of rules R135, R136: exactly `qty` elements, each in its range by type. -/
def checkList (length : Nat) (qty : U16) : Byte := violation maskList (decide (length = qty.toNat))

/-- The status code of a raised status (rule R221). -/
def Raise.code : Raise → Byte
  | .unsupportedFc => 0x01
  | .paramInvalid _ => 0x02
  | .incompleteHeader => 0x10
  | .missingFunctionCode => 0x11
  | .truncated => 0x12

/-- The status code of a result (rule R221). -/
def Result.status : Result → Byte
  | .ok _ => 0x00
  | .raised r => r.code

/-- The 8-bit mask info of a result; only PARAM_INVALID carries one (rules R220, R222). -/
def Result.mask : Result → Option Byte
  | .raised (.paramInvalid m) => some m
  | _ => none

end Sys2Proof.Machine
end

