-- ==== Sys2Proof/Machine/Ops.lean ====
section
/-! DEFINITION. The shared operations on the state: returning a result, raising a status, the transaction id, the
host's events, and the port's acceptance of a command. There is no memory (rule R40), no trap entry and no return from
one (rules R225, R227): raising a status is the block's whole error entry. -/

namespace Sys2Proof.Machine

/-- A command ends and its result is returned to the host (rules R7, R66). -/
def State.finish (r : Result) (s : State) : State := { s with outbox := s.outbox ++ [r] }

/-- `raise S(info)` of rule R220: the command ends at once, with that status and no value, and writes no block state.
It is all there is of an exception in this block (rule R225), and nothing returns from it (rule R227). -/
def State.raise (r : Raise) (s : State) : State := s.finish (.raised r)

/-- A command ends with status OK or a raised status. -/
def State.finishExcept (r : Except Raise Value) (s : State) : State :=
  match r with
  | .ok v => s.finish (.ok v)
  | .error e => s.raise e

/-- `succ` of rule R162. -/
def tidSucc (t : U16) : U16 := if t = 0xFFFF then 1 else t + 1

/-- `TID <- succ(TID)` (rules R161, R162). -/
def State.advanceTid (s : State) : State := { s with tid := tidSucc s.tid }

/-- A reset seeds TID with a fresh draw; there is nothing else to reset (rules R32, R33, R250). -/
def State.seedTid (s : State) : State := { s with tid := Config.tid0 s.draws, seeded := true, draws := s.draws + 1 }

/-- No state survives a loss of power (rules R33, R235): TID holds nothing of its value before, and the block has no
state until the next reset (rule R252). -/
def State.losePower (s : State) : State :=
  { s with tid := Config.unseededTid s.draws, seeded := false, draws := s.draws + 1 }

/-- The port has taken the oldest event; `rest` are the others (rule R48). -/
def State.take (rest : List HostEvent) (s : State) : State := { s with inbox := rest }

/-- The host issues a command after those it issued before (rules R25, R48). -/
def State.issue (r : Request) (s : State) : State := { s with inbox := s.inbox ++ [.command r] }

/-- The port accepts a command whose operands fit and then performs it whole, in one atomic step; else it is refused
and the state is unchanged (rules R7, R42, R226). -/
def perform (fits : Bool) (done : State) : Host.Outcome State Fault Refusal :=
  if fits then .next done else .refused .operandTooLong

/-- Taking the host's next event: nothing to take leaves the block idle (rule R235); a reset and a power loss act at
once (rules R250, R33); a command before reset has no step (rule R252), one with a reserved descriptor is refused
(rules R61, R226), any other is to be run on its operands as they were at issue (rule R55). -/
def fetch (s : State) : Fetched :=
  match s.inbox with
  | [] => .idle
  | .reset :: rest => .done (s.take rest).seedTid
  | .powerLoss :: rest => .done (s.take rest).losePower
  | .command r :: rest =>
    if s.seeded then
      match decode r with
      | .ok i => .run i (s.take rest)
      | .error e => .refuse (.descriptor e)
    else .stuck .commandBeforeReset

/-- The host puts a table word's request before every event that still waits (used by `withFetchWord`). -/
def State.issueFirst (r : Request) (s : State) : State := { s with inbox := .command r :: s.inbox }

end Sys2Proof.Machine
end

