-- ==== Sys2Proof/Machine/Crc.lean ====
section
/-! DEFINITION. The CRC engine and the command CRC16 (rules R100, R101). -/

namespace Sys2Proof.Machine

/-- One of the eight shifts of rule R100. -/
def crcShift (r : U16) : U16 := if r.getLsbD 0 then (r >>> 1) ^^^ 0xA001 else r >>> 1

/-- `n` shifts of rule R100. -/
def crcShifts : Nat → U16 → U16
  | 0, r => r
  | n + 1, r => crcShifts n (crcShift r)

/-- `crc_update(r, b)` of rule R100. -/
def crcUpdate (r : U16) (b : Byte) : U16 := crcShifts 8 (r ^^^ b.setWidth 16)

/-- The CRC of a byte sequence (rules R27, R101): the register starts at 0xFFFF, takes each byte in order, and is
returned as it stands. -/
def crc16 (data : List Byte) : U16 := data.foldl crcUpdate 0xFFFF

/-- CRC16 (rule R101): always OK, block state untouched. -/
def execCrc16 (data : List Byte) (s : State) : Host.Outcome State Fault Refusal :=
  perform (seqFits data) (s.finish (.ok (.crc (crc16 data))))

end Sys2Proof.Machine
end

