-- ==== Sys2Proof/Machine/FunctionCode.lean ====
section
/-! DEFINITION. What each function code has of its own: the checks of its fields (rules R131 to R136) and its PDU
(rules R68, R151 to R158). -/

namespace Sys2Proof.Machine

/-- Rule R131, 0x01. -/
def checkFc01 (unit : Byte) (addr qty : U16) : Byte := checkUnit unit ||| checkAddr addr ||| checkQty 2000 qty
/-- Rule R131, 0x02. -/
def checkFc02 (unit : Byte) (addr qty : U16) : Byte := checkUnit unit ||| checkAddr addr ||| checkQty 2000 qty
/-- Rule R132, 0x03. -/
def checkFc03 (unit : Byte) (addr qty : U16) : Byte := checkUnit unit ||| checkAddr addr ||| checkQty 125 qty
/-- Rule R132, 0x04. -/
def checkFc04 (unit : Byte) (addr qty : U16) : Byte := checkUnit unit ||| checkAddr addr ||| checkQty 125 qty
/-- Rule R133. -/
def checkFc05 (unit : Byte) (addr value : U16) : Byte := checkUnit unit ||| checkAddr addr ||| checkCoilValue value
/-- Rule R134. -/
def checkFc06 (unit : Byte) (addr value : U16) : Byte := checkUnit unit ||| checkAddr addr ||| checkRegValue value
/-- Rule R135. -/
def checkFc0F (unit : Byte) (addr qty : U16) (coils : List Bool) : Byte :=
  checkUnit unit ||| checkAddr addr ||| checkQty 1968 qty ||| checkList coils.length qty
/-- Rule R136. -/
def checkFc10 (unit : Byte) (addr qty : U16) (regs : List U16) : Byte :=
  checkUnit unit ||| checkAddr addr ||| checkQty 123 qty ||| checkList regs.length qty

/-- The byte whose bit `j` is element `j` of a list of at most 8 bits, zeros above them (rule R73). -/
def packByte : List Bool → Byte
  | [] => 0
  | b :: rest => (packByte rest <<< 1) ||| (if b then 1 else 0)

/-- Coil packing (rule R73): `bc` bytes, 8 coils each in coil order, the last one filled with zeros. -/
def pack : Nat → List Bool → List Byte
  | 0, _ => []
  | bc + 1, coils => packByte (coils.take 8) :: pack bc (coils.drop 8)

/-- The byte count of 0x0F, ceil(qty / 8) (rule R72). -/
def coilByteCount (qty : U16) : Nat := (qty.toNat + 7) / 8

/-- The byte count of 0x10, qty * 2 (rule R72). -/
def regByteCount (qty : U16) : Nat := qty.toNat * 2

/-- The register values of 0x10, in list order, each high byte first (rule R158). -/
def regBytes (regs : List U16) : List Byte := regs.flatMap be16Bytes

/-- Rule R151. -/
def pduFc01 (addr qty : U16) : List Byte := [0x01, hi8 addr, lo8 addr, hi8 qty, lo8 qty]
/-- Rule R152. -/
def pduFc02 (addr qty : U16) : List Byte := [0x02, hi8 addr, lo8 addr, hi8 qty, lo8 qty]
/-- Rule R153. -/
def pduFc03 (addr qty : U16) : List Byte := [0x03, hi8 addr, lo8 addr, hi8 qty, lo8 qty]
/-- Rule R154. -/
def pduFc04 (addr qty : U16) : List Byte := [0x04, hi8 addr, lo8 addr, hi8 qty, lo8 qty]
/-- Rule R155. -/
def pduFc05 (addr value : U16) : List Byte := [0x05, hi8 addr, lo8 addr, hi8 value, lo8 value]
/-- Rule R156. -/
def pduFc06 (addr value : U16) : List Byte := [0x06, hi8 addr, lo8 addr, hi8 value, lo8 value]
/-- Rule R157. -/
def pduFc0F (addr qty : U16) (coils : List Bool) : List Byte :=
  [0x0F, hi8 addr, lo8 addr, hi8 qty, lo8 qty, BitVec.ofNat 8 (coilByteCount qty)] ++ pack (coilByteCount qty) coils
/-- Rule R158. -/
def pduFc10 (addr qty : U16) (regs : List U16) : List Byte :=
  [0x10, hi8 addr, lo8 addr, hi8 qty, lo8 qty, BitVec.ofNat 8 (regByteCount qty)] ++ regBytes (regs.take qty.toNat)

/-- `check(p)` of rule R130 for a supported function code: the OR of the bits its checks set (rules R137, R139); the
fields the code does not use are not read (rules R64, R141). -/
def checkParams (f : FnCode) (p : Params) : Byte :=
  match f with
  | .readCoils => checkFc01 p.unit p.addr p.qty
  | .readDiscreteInputs => checkFc02 p.unit p.addr p.qty
  | .readHoldingRegisters => checkFc03 p.unit p.addr p.qty
  | .readInputRegisters => checkFc04 p.unit p.addr p.qty
  | .writeSingleCoil => checkFc05 p.unit p.addr p.value
  | .writeSingleRegister => checkFc06 p.unit p.addr p.value
  | .writeMultipleCoils => checkFc0F p.unit p.addr p.qty p.coils
  | .writeMultipleRegisters => checkFc10 p.unit p.addr p.qty p.regs

/-- `pdu(p)` of rule R150, by function code (rules R151 to R158). -/
def pduOf (f : FnCode) (p : Params) : List Byte :=
  match f with
  | .readCoils => pduFc01 p.addr p.qty
  | .readDiscreteInputs => pduFc02 p.addr p.qty
  | .readHoldingRegisters => pduFc03 p.addr p.qty
  | .readInputRegisters => pduFc04 p.addr p.qty
  | .writeSingleCoil => pduFc05 p.addr p.value
  | .writeSingleRegister => pduFc06 p.addr p.value
  | .writeMultipleCoils => pduFc0F p.addr p.qty p.coils
  | .writeMultipleRegisters => pduFc10 p.addr p.qty p.regs

end Sys2Proof.Machine
end

