-- ==== Sys2Proof/Machine/Validate.lean ====
section
/-! DEFINITION. The command VALIDATE (rules R130 to R141). The mode bit has no effect (rule R130). -/

namespace Sys2Proof.Machine

/-- The end of a validation whose mask is known (rule R130). -/
def validateMask (mask : Byte) (s : State) : State :=
  if mask = 0 then s.finish (.ok .valid) else s.raise (.paramInvalid mask)

/-- VALIDATE of rule R130: the function code first, then every check of its fields. -/
def validateParams (p : Params) (s : State) : State :=
  match FnCode.ofByte p.fc with
  | none => s.raise .unsupportedFc
  | some f => validateMask (checkParams f p) s

/-- VALIDATE.RTU (rule R130). -/
def execValidateRtu (p : Params) (s : State) : Host.Outcome State Fault Refusal :=
  perform (paramsFit p) (validateParams p s)

/-- VALIDATE.TCP (rule R130): IP address and port are the host's to check (rule R140). -/
def execValidateTcp (p : Params) (s : State) : Host.Outcome State Fault Refusal :=
  perform (paramsFit p) (validateParams p s)

end Sys2Proof.Machine
end

