-- ==== Sys2Proof/Machine/Encode.lean ====
section
/-! DEFINITION. The command ENCODE (rules R150 to R162). -/

namespace Sys2Proof.Machine

/-- `wrap_rtu` of rule R160 (layout R69): unit id, PDU, and the CRC over both, low byte first (rules R44, R104). -/
def wrapRtu (unit : Byte) (pdu : List Byte) : List Byte :=
  let a := [unit] ++ pdu
  a ++ [lo8 (crc16 a), hi8 (crc16 a)]

/-- The MBAP length of a PDU (rule R75). -/
def mbapLength (pdu : List Byte) : U16 := BitVec.ofNat 16 (pdu.length + 1)

/-- `wrap_tcp` of rule R161 (layout R70) for the transaction id `t` drawn from TID. -/
def wrapTcp (t : U16) (unit : Byte) (pdu : List Byte) : List Byte :=
  [hi8 t, lo8 t, 0x00, 0x00, hi8 (mbapLength pdu), lo8 (mbapLength pdu), unit] ++ pdu

/-- ENCODE in mode RTU of a PDU whose mask is known (rules R150, R160): TID neither read nor written. -/
def encodeMaskRtu (unit : Byte) (mask : Byte) (pdu : List Byte) (s : State) : State :=
  if mask = 0 then s.finish (.ok (.adu (wrapRtu unit pdu))) else s.raise (.paramInvalid mask)

/-- ENCODE in mode TCP of a PDU whose mask is known (rules R49, R150, R161): the read of TID and its advance are one
step; a failed command leaves TID alone. -/
def encodeMaskTcp (unit : Byte) (mask : Byte) (pdu : List Byte) (s : State) : State :=
  if mask = 0 then s.advanceTid.finish (.ok (.adu (wrapTcp s.tid unit pdu))) else s.raise (.paramInvalid mask)

/-- ENCODE of a PDU whose mask is known, in either mode. -/
def encodeMask (m : Mode) (unit : Byte) (mask : Byte) (pdu : List Byte) (s : State) : State :=
  match m with
  | .rtu => encodeMaskRtu unit mask pdu s
  | .tcp => encodeMaskTcp unit mask pdu s

/-- ENCODE of rule R150: the function code, then the checks, then the PDU and its wrapping. -/
def encodeParams (m : Mode) (p : Params) (s : State) : State :=
  match FnCode.ofByte p.fc with
  | none => s.raise .unsupportedFc
  | some f => encodeMask m p.unit (checkParams f p) (pduOf f p) s

/-- ENCODE.RTU (rule R150). -/
def execEncodeRtu (p : Params) (s : State) : Host.Outcome State Fault Refusal :=
  perform (paramsFit p) (encodeParams .rtu p s)

/-- ENCODE.TCP (rule R150). -/
def execEncodeTcp (p : Params) (s : State) : Host.Outcome State Fault Refusal :=
  perform (paramsFit p) (encodeParams .tcp p s)

end Sys2Proof.Machine
end

