-- ==== Sys2Proof/Machine/FrameDecode.lean ====
section
/-! DEFINITION. The command DECODE (rules R180 to R201): the cursor, the headers, the function code shapes, the
remainders. The RTU CRC is shown, never verified (rule R197). -/

namespace Sys2Proof.Machine

/-- The decoder's working state (rules R28, R182): the operand, the index of the next byte, the index one past the last
byte a field may be read from, and the segments so far. It lives inside one DECODE. -/
structure Cursor where
  frame : List Byte
  pos : Nat
  stop : Nat
  segs : List Segment
  deriving DecidableEq, Repr

/-- `emit(kind, off, len)` of rule R181. -/
def Cursor.emit (kind : Kind) (off len : Nat) (c : Cursor) : Cursor :=
  { c with segs := c.segs ++ [segmentAt c.frame kind off len] }

/-- `pos <- pos + w`. -/
def Cursor.skip (w : Nat) (c : Cursor) : Cursor := { c with pos := c.pos + w }

/-- `field(kind, w)` of rule R182: the bound first; then the segment, its value, and the advance. -/
def Cursor.field (kind : Kind) (w : Nat) (c : Cursor) : Except Raise (U16 × Cursor) :=
  if c.pos + w > c.stop then .error .truncated
  else .ok (fieldValue c.frame c.pos w, (c.emit kind c.pos w).skip w)

/-- `need(c)` of rules R182 and R194: a run of `n` data bytes must fit. -/
def Cursor.need (n : Nat) (c : Cursor) : Except Raise Cursor :=
  if c.pos + n > c.stop then .error .truncated else .ok c

/-- A run of `n` segments of one kind and width `w`, from the cursor on (rules R192, R193). -/
def Cursor.emitRun (kind : Kind) (w n : Nat) (c : Cursor) : Cursor :=
  { c with segs := c.segs ++ (List.range n).map fun k => segmentAt c.frame kind (c.pos + w * k) w }

/-- Two fields of two bytes, the first of them Addr (the READ and WRITE1 shapes of rule R76). -/
def shapeTwo (second : Kind) (c : Cursor) : Except Raise Cursor :=
  match c.field .addr 2 with
  | .error e => .error e
  | .ok (_, c1) =>
    match c1.field second 2 with
    | .error e => .error e
    | .ok (_, c2) => .ok c2

/-- The WRITEN shape of rule R76: Addr, Qty, ByteCount, then room for as many bytes; `run` emits the data. -/
def shapeCounted (run : Nat → Cursor → Cursor) (c : Cursor) : Except Raise Cursor :=
  match shapeTwo .qty c with
  | .error e => .error e
  | .ok c2 =>
    match c2.field .byteCount 1 with
    | .error e => .error e
    | .ok (bc, c3) =>
      match c3.need bc.toNat with
      | .error e => .error e
      | .ok c4 => .ok ((run bc.toNat c4).skip bc.toNat)

/-- One CoilData segment for each data byte (rule R192). -/
def coilRun (bc : Nat) (c : Cursor) : Cursor := c.emitRun .coilData 1 bc

/-- One RegValue segment for every two data bytes; an odd last byte is a Data segment (rule R193). -/
def regRun (bc : Nat) (c : Cursor) : Cursor :=
  let c' := c.emitRun .regValue 2 (bc / 2)
  if bc % 2 = 1 then c'.emit .data (c.pos + bc - 1) 1 else c'

/-- Rule R186. -/
def shapeFc01 (c : Cursor) : Except Raise Cursor := shapeTwo .qty c
/-- Rule R187. -/
def shapeFc02 (c : Cursor) : Except Raise Cursor := shapeTwo .qty c
/-- Rule R188. -/
def shapeFc03 (c : Cursor) : Except Raise Cursor := shapeTwo .qty c
/-- Rule R189. -/
def shapeFc04 (c : Cursor) : Except Raise Cursor := shapeTwo .qty c
/-- Rule R190. -/
def shapeFc05 (c : Cursor) : Except Raise Cursor := shapeTwo .value c
/-- Rule R191. -/
def shapeFc06 (c : Cursor) : Except Raise Cursor := shapeTwo .value c
/-- Rule R192. -/
def shapeFc0F (c : Cursor) : Except Raise Cursor := shapeCounted coilRun c
/-- Rule R193. -/
def shapeFc10 (c : Cursor) : Except Raise Cursor := shapeCounted regRun c
/-- Rule R196: no field is read. -/
def shapeUnknown (c : Cursor) : Except Raise Cursor := .ok c

/-- The shape a function code byte selects (rules R185 to R196). -/
def shapeOf (fc : Byte) : Cursor → Except Raise Cursor :=
  match FnCode.ofByte fc with
  | some .readCoils => shapeFc01
  | some .readDiscreteInputs => shapeFc02
  | some .readHoldingRegisters => shapeFc03
  | some .readInputRegisters => shapeFc04
  | some .writeSingleCoil => shapeFc05
  | some .writeSingleRegister => shapeFc06
  | some .writeMultipleCoils => shapeFc0F
  | some .writeMultipleRegisters => shapeFc10
  | none => shapeUnknown

/-- `rtu_header()` of rule R183. -/
def rtuHeader (frame : List Byte) : Except Raise Cursor :=
  if frame.length < 1 then .error .incompleteHeader
  else if frame.length < 2 then .error .missingFunctionCode
  else if frame.length < 4 then .error .truncated
  else .ok (((Cursor.mk frame 0 (frame.length - 2) []).emit .slaveID 0 1).skip 1)

/-- `tcp_header()` of rule R184: protocol id and Length are shown as they stand. -/
def tcpHeader (frame : List Byte) : Except Raise Cursor :=
  if frame.length < 7 then .error .incompleteHeader
  else if frame.length < 8 then .error .missingFunctionCode
  else .ok (((((Cursor.mk frame 0 frame.length []).emit .transID 0 2).emit .protoID 2 2).emit .length 4 2).emit
    .unitID 6 1 |>.skip 7)

/-- The header of a mode. -/
def header (m : Mode) (frame : List Byte) : Except Raise Cursor :=
  match m with
  | .rtu => rtuHeader frame
  | .tcp => tcpHeader frame

/-- What is left between the shape and the bound is one Data segment (rules R195, R196). -/
def Cursor.remainder (c : Cursor) : Cursor :=
  if c.pos < c.stop then (c.emit .data c.pos (c.stop - c.pos)).skip (c.stop - c.pos) else c

/-- The last segment of an RTU frame (rule R197). -/
def Cursor.trailer (m : Mode) (c : Cursor) : Cursor :=
  match m with
  | .rtu => c.emit .crc (c.frame.length - 2) 2
  | .tcp => c

/-- DECODE from the function code byte on (rule R180), by a shape. -/
def decodePdu (m : Mode) (shape : Cursor → Except Raise Cursor) (c : Cursor) : Except Raise Value :=
  match shape ((c.emit .func c.pos 1).skip 1) with
  | .error e => .error e
  | .ok c' => .ok (.segments (c'.remainder.trailer m).segs)

/-- DECODE of rule R180: the header, the function code byte, the shape it selects, the remainder, the CRC. -/
def decodeFrame (m : Mode) (frame : List Byte) : Except Raise Value :=
  match header m frame with
  | .error e => .error e
  | .ok c => decodePdu m (shapeOf (rd8 c.frame c.pos)) c

/-- DECODE by one function code's shape of a frame whose function code byte is that code (rules R185 to R196). -/
def decodeShape (m : Mode) (shape : Cursor → Except Raise Cursor) (frame : List Byte) : Except Raise Value :=
  match header m frame with
  | .error e => .error e
  | .ok c => decodePdu m shape c

/-- DECODE.RTU (rule R180). -/
def execDecodeRtu (frame : List Byte) (s : State) : Host.Outcome State Fault Refusal :=
  perform (seqFits frame) (s.finishExcept (decodeFrame .rtu frame))

/-- DECODE.TCP (rule R180). -/
def execDecodeTcp (frame : List Byte) (s : State) : Host.Outcome State Fault Refusal :=
  perform (seqFits frame) (s.finishExcept (decodeFrame .tcp frame))

end Sys2Proof.Machine
end

