-- ==== Sys2Proof/Machine/PduRow.lean ====
section
/-! DEFINITION. The function code rows of the opcode table: what VALIDATE, ENCODE and DECODE do with a PDU of one
function code (rules R131 to R136, R151 to R158, R186 to R196). Each row is built from that code's own definitions,
without the dispatch by function code that the commands make. -/

namespace Sys2Proof.Machine

/-- One use of a function code row: its checks, its PDU, its shape. -/
def rowUse {α : Type} (fc : Byte) (fits : α → Bool) (check : Byte → α → Byte) (pdu : α → List Byte)
    (shape : Cursor → Except Raise Cursor) (u : PduUse α) (s : State) : Host.Outcome State Fault Refusal :=
  match u with
  | .validate _ unit f => perform (fits f) (validateMask (check unit f) s)
  | .encode m unit f => perform (fits f) (encodeMask m unit (check unit f) (pdu f) s)
  | .decode sh body =>
    perform (seqFits (sh.frame fc body)) (s.finishExcept (decodeShape sh.mode shape (sh.frame fc body)))

/-- FC 0x01, Read Coils (rules R131, R151, R186). -/
def execFc01ReadCoils (u : PduUse ReadFields) (s : State) : Host.Outcome State Fault Refusal :=
  rowUse 0x01 (fun _ => true) (fun unit f => checkFc01 unit f.addr f.qty) (fun f => pduFc01 f.addr f.qty) shapeFc01 u s

/-- FC 0x02, Read Discrete Inputs (rules R131, R152, R187). -/
def execFc02ReadDiscreteInputs (u : PduUse ReadFields) (s : State) : Host.Outcome State Fault Refusal :=
  rowUse 0x02 (fun _ => true) (fun unit f => checkFc02 unit f.addr f.qty) (fun f => pduFc02 f.addr f.qty) shapeFc02 u s

/-- FC 0x03, Read Holding Registers (rules R132, R153, R188). -/
def execFc03ReadHoldingRegisters (u : PduUse ReadFields) (s : State) : Host.Outcome State Fault Refusal :=
  rowUse 0x03 (fun _ => true) (fun unit f => checkFc03 unit f.addr f.qty) (fun f => pduFc03 f.addr f.qty) shapeFc03 u s

/-- FC 0x04, Read Input Registers (rules R132, R154, R189). -/
def execFc04ReadInputRegisters (u : PduUse ReadFields) (s : State) : Host.Outcome State Fault Refusal :=
  rowUse 0x04 (fun _ => true) (fun unit f => checkFc04 unit f.addr f.qty) (fun f => pduFc04 f.addr f.qty) shapeFc04 u s

/-- FC 0x05, Write Single Coil (rules R133, R155, R190). -/
def execFc05WriteSingleCoil (u : PduUse WriteOneFields) (s : State) : Host.Outcome State Fault Refusal :=
  rowUse 0x05 (fun _ => true) (fun unit f => checkFc05 unit f.addr f.value) (fun f => pduFc05 f.addr f.value)
    shapeFc05 u s

/-- FC 0x06, Write Single Register (rules R134, R156, R191). -/
def execFc06WriteSingleRegister (u : PduUse WriteOneFields) (s : State) : Host.Outcome State Fault Refusal :=
  rowUse 0x06 (fun _ => true) (fun unit f => checkFc06 unit f.addr f.value) (fun f => pduFc06 f.addr f.value)
    shapeFc06 u s

/-- FC 0x0F, Write Multiple Coils (rules R135, R157, R192). -/
def execFc0FWriteMultipleCoils (u : PduUse WriteCoilsFields) (s : State) : Host.Outcome State Fault Refusal :=
  rowUse 0x0F (fun f => listsFit f.coils []) (fun unit f => checkFc0F unit f.addr f.qty f.coils)
    (fun f => pduFc0F f.addr f.qty f.coils) shapeFc0F u s

/-- FC 0x10, Write Multiple Registers (rules R136, R158, R193). -/
def execFc10WriteMultipleRegisters (u : PduUse WriteRegsFields) (s : State) : Host.Outcome State Fault Refusal :=
  rowUse 0x10 (fun f => listsFit [] f.regs) (fun unit f => checkFc10 unit f.addr f.qty f.regs)
    (fun f => pduFc10 f.addr f.qty f.regs) shapeFc10 u s

/-- FC_UNKNOWN: any function code no other row names (rules R77, R196). The row has the lowest priority, so the code is
looked up first: VALIDATE and ENCODE raise UNSUPPORTED_FC and DECODE shows the rest as opaque data only where the lookup
finds no row. -/
def execFcUnknown (fc : Byte) (u : PduUse RecordFields) (s : State) : Host.Outcome State Fault Refusal :=
  match u with
  | .validate _ unit f => perform (paramsFit (otherParams fc unit f)) (validateParams (otherParams fc unit f) s)
  | .encode m unit f => perform (paramsFit (otherParams fc unit f)) (encodeParams m (otherParams fc unit f) s)
  | .decode sh body =>
    perform (seqFits (sh.frame fc body)) (s.finishExcept (decodeFrame sh.mode (sh.frame fc body)))

end Sys2Proof.Machine
end

