-- ==== Sys2Proof/Machine/Dispatch.lean ====
section
/-! DEFINITION. One arm for each constructor of Instr. -/

namespace Sys2Proof.Machine

def exec (i : Instr) (s : State) : Host.Outcome State Fault Refusal :=
  match i with
  | .crc16 data => Sys2Proof.Machine.execCrc16 data s
  | .validateRtu p => Sys2Proof.Machine.execValidateRtu p s
  | .encodeRtu p => Sys2Proof.Machine.execEncodeRtu p s
  | .decodeRtu frame => Sys2Proof.Machine.execDecodeRtu frame s
  | .validateTcp p => Sys2Proof.Machine.execValidateTcp p s
  | .encodeTcp p => Sys2Proof.Machine.execEncodeTcp p s
  | .decodeTcp frame => Sys2Proof.Machine.execDecodeTcp frame s
  | .fc01ReadCoils u => Sys2Proof.Machine.execFc01ReadCoils u s
  | .fc02ReadDiscreteInputs u => Sys2Proof.Machine.execFc02ReadDiscreteInputs u s
  | .fc03ReadHoldingRegisters u => Sys2Proof.Machine.execFc03ReadHoldingRegisters u s
  | .fc04ReadInputRegisters u => Sys2Proof.Machine.execFc04ReadInputRegisters u s
  | .fc05WriteSingleCoil u => Sys2Proof.Machine.execFc05WriteSingleCoil u s
  | .fc06WriteSingleRegister u => Sys2Proof.Machine.execFc06WriteSingleRegister u s
  | .fc0FWriteMultipleCoils u => Sys2Proof.Machine.execFc0FWriteMultipleCoils u s
  | .fc10WriteMultipleRegisters u => Sys2Proof.Machine.execFc10WriteMultipleRegisters u s
  | .fcUnknown fc u => Sys2Proof.Machine.execFcUnknown fc u s

end Sys2Proof.Machine
end

