-- ==== Sys2Proof/Machine/Step.lean ====
section
/-! DEFINITION. One step: the port takes the host's next event and, if it is a command, performs it whole
(rules R7, R8, R48). -/

namespace Sys2Proof.Machine

/-- One step of the machine. -/
def step (s : State) : Host.Outcome State Fault Refusal :=
  match fetch s with
  | .idle => .next s
  | .done s' => .next s'
  | .stuck f => .fault f
  | .refuse r => .refused r
  | .run i s' => exec i s'

/-- A table word as the command the port takes next, operand bits above it 0 (rules R61 to R65). The width of a
descriptor is fixed, so `nbits` adds nothing. -/
def State.withFetchWord (s : State) (nbits w : Nat) : State :=
  s.issueFirst (tableRequest (w % 2 ^ max nbits 8))

end Sys2Proof.Machine
end

