-- ==== Sys2Proof/Machine/HostText.lean ====
section
/-! DEFINITION. The host's side of the port: hex text in and out, the high/low split, a user's numbers as operand fields,
labels and display text (rules R110 to R116, R198, R199, R257). The block never sees text (rule R4); text is a list of characters. -/

namespace Sys2Proof.Machine

/-- What the host may be handed where a number is expected (rules R111, R115): an integer, a fractional number, or
something that is no number. -/
inductive HostNumber where
  | int (n : Int)
  | fraction
  | notNumber
  deriving DecidableEq, Repr

/-- The categories of rule R198. -/
inductive Category where
  | header
  | function
  | data
  | checksum
  deriving DecidableEq, Repr

/-- The uppercase hexadecimal digit of a value below 16 (rule R111). -/
def hexDigit (n : Nat) : Char := if n < 10 then Char.ofNat (48 + n) else Char.ofNat (55 + n)

/-- Base-16 digits of `n`, most significant first, in front of `acc`; `fuel` bounds their number. -/
def hexDigitsAux : Nat → Nat → List Char → List Char
  | 0, _, acc => acc
  | fuel + 1, n, acc =>
    if n < 16 then hexDigit n :: acc else hexDigitsAux fuel (n / 16) (hexDigit (n % 16) :: acc)

/-- The uppercase base-16 digits of a natural number, "0" for 0 (rule R111). -/
def hexDigits (n : Nat) : List Char := hexDigitsAux (n + 1) n []

/-- `formatHex` of rule R111 for a natural number: padded on the left, never truncated. -/
def formatNat (n width : Nat) : List Char :=
  let s := hexDigits n
  List.replicate (width - s.length) '0' ++ s

/-- `formatHex` of rule R111. None where the spec gives no meaning, a negative or fractional number (entry I7). -/
def formatHex (value : HostNumber) (width : Nat := 2) : Option (List Char) :=
  match value with
  | .int (.ofNat n) => some (formatNat n width)
  | .int (.negSucc _) => none
  | .fraction => none
  | .notNumber => some (List.replicate width Config.placeholder)

/-- The value of a hexadecimal digit of either case (rule R112). -/
def hexDigitValue (c : Char) : Option Nat :=
  let n := c.toNat
  if 48 ≤ n ∧ n ≤ 57 then some (n - 48)
  else if 65 ≤ n ∧ n ≤ 70 then some (n - 55)
  else if 97 ≤ n ∧ n ≤ 102 then some (n - 87)
  else none

/-- A token without its base mark (rule R112): the prefix is tried first, and at most one mark is removed. -/
def stripBase (t : List Char) : List Char :=
  match t with
  | '0' :: 'x' :: s => s
  | '0' :: 'X' :: s => s
  | _ => if t.getLast? = some 'h' ∨ t.getLast? = some 'H' then t.dropLast else t

/-- `parseHexToken` of rule R112; none is Fail. -/
def parseHexToken (t : List Char) : Option Byte :=
  match stripBase t with
  | [a] => (hexDigitValue a).map (BitVec.ofNat 8)
  | [a, b] =>
    match hexDigitValue a, hexDigitValue b with
    | some x, some y => some (BitVec.ofNat 8 (16 * x + y))
    | _, _ => none
  | _ => none

/-- The whitespace of rule R113: space, tab, carriage return, line feed. -/
def isBlank (c : Char) : Bool := c.toNat = 32 || c.toNat = 9 || c.toNat = 13 || c.toNat = 10

/-- The tokens of a text, `word` being the one begun, reversed (rule R113). -/
def tokensAux : List Char → List Char → List (List Char)
  | [], word => if word.isEmpty then [] else [word.reverse]
  | c :: rest, word =>
    if isBlank c then (if word.isEmpty then tokensAux rest [] else word.reverse :: tokensAux rest [])
    else tokensAux rest (c :: word)

/-- The tokens of a text (rule R113). -/
def tokens (text : List Char) : List (List Char) := tokensAux text []

/-- Every element converted, in order, or none if any element fails: no partial application (rules R113, R257). -/
def convertAll {α β : Type} (convert : α → Option β) : List α → Option (List β)
  | [] => some []
  | x :: rest =>
    match convert x, convertAll convert rest with
    | some y, some ys => some (y :: ys)
    | _, _ => none

/-- `parseHexText` of rule R113; none is the one condition "invalid hex in input". -/
def parseHexText (text : List Char) : Option (List Byte) := convertAll parseHexToken (tokens text)

/-- The host turns frame text into a CRC16 or DECODE command, and issues none if the text does not parse (rule R114). -/
def State.issueText (cmd : Byte) (text : List Char) (s : State) : State :=
  match parseHexText text with
  | some bytes => s.issue (Request.mk cmd bytes (Params.mk 0 0 0 0 0 [] []))
  | none => s

/-- `decToHighLowBytes` of rule R115, with its clamp (rule R116). None for a fractional number (entry I8). -/
def decToHighLowBytes (v : HostNumber) : Option (List Byte) :=
  match v with
  | .int (.ofNat n) => some (if n ≤ 65535 then be16Bytes (BitVec.ofNat 16 n) else [0, 0])
  | .int (.negSucc _) => some [0, 0]
  | .fraction => none
  | .notNumber => some [0, 0]

/-- What a `u16` field holds if the host splits the user's number without checking it first: 0 in place of a number out
of range (rules R116, R257). -/
def clampedField (v : HostNumber) : Option U16 :=
  (decToHighLowBytes v).map fun bytes => be16 (bytes.getD 0 0) (bytes.getD 1 0)

/-- A user's number where it is an integer from 0 to `most`; anything else is rejected, not clamped (rule R257, entry I6). -/
def naturalOfNumber (most : Nat) (v : HostNumber) : Option Nat :=
  match v with
  | .int (.ofNat n) => if n ≤ most then some n else none
  | .int (.negSucc _) => none
  | .fraction => none
  | .notNumber => none

/-- A user's number as a `u8` operand field (rules R63, R257). -/
def byteOfNumber (v : HostNumber) : Option Byte := (naturalOfNumber 255 v).map (BitVec.ofNat 8)

/-- A user's number as a `u16` operand field (rules R63, R257). -/
def fieldOfNumber (v : HostNumber) : Option U16 := (naturalOfNumber 65535 v).map (BitVec.ofNat 16)

/-- A user's number as a coil, 0 or 1 (rules R63, R257). -/
def bitOfNumber (v : HostNumber) : Option Bool := (naturalOfNumber 1 v).map fun n => n == 1

/-- The numbers a user enters for the record of rule R63. A field not entered is 0 or empty (rule R81). -/
structure UserParams where
  unit : HostNumber := .int 0
  fc : HostNumber := .int 0
  addr : HostNumber := .int 0
  qty : HostNumber := .int 0
  value : HostNumber := .int 0
  coils : List HostNumber := []
  regs : List HostNumber := []
  deriving DecidableEq, Repr

/-- The typed record of a user's numbers, or none if any of them does not fit its field (rule R257). -/
def paramsOfNumbers (u : UserParams) : Option Params :=
  match byteOfNumber u.unit, byteOfNumber u.fc, fieldOfNumber u.addr, fieldOfNumber u.qty, fieldOfNumber u.value,
    convertAll bitOfNumber u.coils, convertAll fieldOfNumber u.regs with
  | some unit, some fc, some addr, some qty, some value, some coils, some regs =>
    some (Params.mk unit fc addr qty value coils regs)
  | _, _, _, _, _, _, _ => none

/-- The host turns a user's numbers into a VALIDATE or ENCODE command, and issues none if any of them does not fit
(rule R257). -/
def State.issueNumbers (cmd : Byte) (u : UserParams) (s : State) : State :=
  match paramsOfNumbers u with
  | some p => s.issue (Request.mk cmd [] p)
  | none => s

/-- The label of a kind (rule R198). -/
def Kind.label : Kind → String
  | .slaveID => "SlaveID"
  | .transID => "TransID"
  | .protoID => "ProtoID"
  | .length => "Length"
  | .unitID => "UnitID"
  | .func => "Func"
  | .addr => "Addr"
  | .qty => "Qty"
  | .value => "Value"
  | .byteCount => "ByteCount"
  | .coilData => "CoilData"
  | .regValue => "RegValue"
  | .data => "Data"
  | .crc => "CRC"

/-- The category of a kind (rule R198). -/
def Kind.category : Kind → Category
  | .slaveID => .header
  | .transID => .header
  | .protoID => .header
  | .length => .header
  | .unitID => .header
  | .func => .function
  | .addr => .data
  | .qty => .data
  | .value => .data
  | .byteCount => .data
  | .coilData => .data
  | .regValue => .data
  | .data => .data
  | .crc => .checksum

/-- The length a kind has (rule R198); Data has any length of at least 1. -/
def Kind.width : Kind → Option Nat
  | .slaveID => some 1
  | .transID => some 2
  | .protoID => some 2
  | .length => some 2
  | .unitID => some 1
  | .func => some 1
  | .addr => some 2
  | .qty => some 2
  | .value => some 2
  | .byteCount => some 1
  | .coilData => some 1
  | .regValue => some 2
  | .data => none
  | .crc => some 2

/-- The bytes as 2-digit groups joined by single spaces (rule R199). -/
def hexBytes (bytes : List Byte) : List Char :=
  List.intercalate [' '] (bytes.map fun b => formatNat b.toNat 2)

/-- `hexValue` of rule R199: the display text of a segment of a frame. -/
def hexValue (frame : List Byte) (g : Segment) : List Char :=
  match g.value with
  | some v => formatNat v.toNat (2 * g.len)
  | none => hexBytes ((frame.drop g.off).take g.len)

end Sys2Proof.Machine
end

