-- ==== Sys2Proof/Safety.lean ====
section
/-! DEFINITION. What counts as a good state, a good run and a run's observation (rules R22, R226, R252, R260), and how
a decoded frame's segments are read (rules R164, R201). -/

namespace Sys2Proof.Machine

/-- The invariant of rule R22: whenever the block has state, TID is in [1, 0xFFFF]; 0 never appears. -/
abbrev State.TidLegal (s : State) : Prop := s.seeded = true → 1 ≤ s.tid.toNat

/-- The port accepts the request (rule R226): its descriptor is one of the seven and its operands fit. -/
def accepted (r : Request) : Bool :=
  match decode r with
  | .ok i => i.wellFormed
  | .error _ => false

/-- The observation of a run (rule R260): the results in order and the final TID. -/
def State.observation (s : State) : List Result × U16 := (s.outbox, s.tid)

/-- VALIDATE in a mode. -/
def validateOf : Mode → Params → Instr
  | .rtu => .validateRtu
  | .tcp => .validateTcp

/-- ENCODE in a mode. -/
def encodeOf : Mode → Params → Instr
  | .rtu => .encodeRtu
  | .tcp => .encodeTcp

/-- DECODE in a mode. -/
def decodeOf : Mode → List Byte → Instr
  | .rtu => .decodeRtu
  | .tcp => .decodeTcp

/-- Both lists of a record are within the capacity (rule R63). -/
abbrev Fits (p : Params) : Prop := p.coils.length ≤ Config.listCap ∧ p.regs.length ≤ Config.listCap

/-- The table of section 2 of 42_validator.md: the records that pass validation (rules R131 to R136). -/
abbrev Valid (p : Params) : Prop :=
  ((p.fc = 0x01 ∨ p.fc = 0x02) ∧ 1 ≤ p.qty.toNat ∧ p.qty.toNat ≤ 2000) ∨
  ((p.fc = 0x03 ∨ p.fc = 0x04) ∧ 1 ≤ p.qty.toNat ∧ p.qty.toNat ≤ 125) ∨
  (p.fc = 0x05 ∧ (p.value = 0xFF00 ∨ p.value = 0x0000)) ∨
  p.fc = 0x06 ∨
  (p.fc = 0x0F ∧ 1 ≤ p.qty.toNat ∧ p.qty.toNat ≤ 1968 ∧ p.coils.length = p.qty.toNat) ∨
  (p.fc = 0x10 ∧ 1 ≤ p.qty.toNat ∧ p.qty.toNat ≤ 123 ∧ p.regs.length = p.qty.toNat)

/-- The table of rule R64: two records agree on every field their function code uses. -/
abbrev SameUsedFields (p q : Params) : Prop :=
  p.unit = q.unit ∧ p.fc = q.fc ∧
  (p.fc ∈ supportedCodes → p.addr = q.addr) ∧
  (p.fc ∈ ([0x01, 0x02, 0x03, 0x04, 0x0F, 0x10] : List Byte) → p.qty = q.qty) ∧
  (p.fc ∈ ([0x05, 0x06] : List Byte) → p.value = q.value) ∧
  (p.fc = 0x0F → p.coils = q.coils) ∧
  (p.fc = 0x10 → p.regs = q.regs)

/-- Whether `room` bytes between the function code byte and the bound hold the shape of the code (rules R182, R186 to
R194); `bc` is the byte that stands where 0x0F and 0x10 have their byte count. -/
def shapeFits (fc : Byte) (room : Nat) (bc : Byte) : Bool :=
  if fc ∈ ([0x01, 0x02, 0x03, 0x04, 0x05, 0x06] : List Byte) then decide (4 ≤ room)
  else if fc = 0x0F ∨ fc = 0x10 then decide (5 + bc.toNat ≤ room)
  else true

/-- The use of a row is ENCODE in mode TCP. -/
def tcpEncodeUse {α : Type} : PduUse α → Bool
  | .encode .tcp _ _ => true
  | .encode .rtu _ _ => false
  | .validate _ _ _ => false
  | .decode _ _ => false

/-- The instruction is ENCODE in mode TCP, as a command or as the use of a function code row (rule R23). -/
def isTcpEncode : Instr → Bool
  | .crc16 _ => false
  | .validateRtu _ => false
  | .encodeRtu _ => false
  | .decodeRtu _ => false
  | .validateTcp _ => false
  | .encodeTcp _ => true
  | .decodeTcp _ => false
  | .fc01ReadCoils u => tcpEncodeUse u
  | .fc02ReadDiscreteInputs u => tcpEncodeUse u
  | .fc03ReadHoldingRegisters u => tcpEncodeUse u
  | .fc04ReadInputRegisters u => tcpEncodeUse u
  | .fc05WriteSingleCoil u => tcpEncodeUse u
  | .fc06WriteSingleRegister u => tcpEncodeUse u
  | .fc0FWriteMultipleCoils u => tcpEncodeUse u
  | .fc10WriteMultipleRegisters u => tcpEncodeUse u
  | .fcUnknown _ u => tcpEncodeUse u

/-- The request is an ENCODE.TCP whose record passes validation: it draws a transaction id (rules R161, R162). -/
def drawsTid (r : Request) : Bool :=
  match decode r with
  | .ok (.encodeTcp p) => decide (Valid p)
  | _ => false

/-- The values of the segments of one kind, in order. -/
def valuesOf (kind : Kind) (segs : List Segment) : List U16 :=
  segs.filterMap fun g => if g.kind = kind then g.value else none

/-- The segments cover the indices from `start` to `stop` in order, without gap or overlap (rule R201). -/
def Tiles (start stop : Nat) : List Segment → Prop
  | [] => start = stop
  | g :: rest => g.off = start ∧ 1 ≤ g.len ∧ Tiles (g.off + g.len) stop rest

/-- The segments of a run of fields of one kind and width (rules R192, R193). -/
def runSegments (frame : List Byte) (kind : Kind) (start w n : Nat) : List Segment :=
  (List.range n).map fun k => segmentAt frame kind (start + w * k) w

/-- The Data segment of what remains, if anything does (rules R195, R196). -/
def remainderSegments (off len : Nat) : List Segment :=
  if len = 0 then [] else [Segment.mk .data off len none]

/-- The index of the function code byte in a shell's frame (rules R69, R70). -/
def pduAt : FrameShell → Nat
  | .rtu _ _ _ => 1
  | .tcp _ _ _ _ => 7

/-- The segments of a shell's header (rules R183, R184). -/
def headerSegments : FrameShell → List Segment
  | .rtu unit _ _ => [Segment.mk .slaveID 0 1 (some (unit.setWidth 16))]
  | .tcp tid proto len unit =>
    [Segment.mk .transID 0 2 (some tid), Segment.mk .protoID 2 2 (some proto), Segment.mk .length 4 2 (some len),
     Segment.mk .unitID 6 1 (some (unit.setWidth 16))]

/-- The segment after a shell's PDU, which ends at `stop`: the CRC of an RTU frame, low byte first (rule R197). -/
def trailerSegments (stop : Nat) : FrameShell → List Segment
  | .rtu _ lo hi => [Segment.mk .crc stop 2 (some (be16 hi lo))]
  | .tcp _ _ _ _ => []

end Sys2Proof.Machine
end

