-- ==== Sys2Proof/Certificates/Slice0/Obligations.lean ====
section
/-! DEFINITION. What is to be proved of the model; OBLIGATIONS.json says which rule of the spec each one states. -/

open Sys2Proof Sys2Proof.Machine

/-! ## The command port -/

/-- Rules R60, R61: a descriptor is accepted if and only if it is one of the seven, and then selects the command the
table gives, with the operand record of rules R62, R63 and R65; every other value is refused. -/
def Obligations.DescriptorSelectsCommand : Prop :=
  ∀ (cmd : Byte) (bytes : List Byte) (p : Params),
    (cmd = 0x00 → decode (Request.mk cmd bytes p) = .ok (.crc16 bytes)) ∧
    (cmd = 0x01 → decode (Request.mk cmd bytes p) = .ok (.validateRtu p)) ∧
    (cmd = 0x05 → decode (Request.mk cmd bytes p) = .ok (.validateTcp p)) ∧
    (cmd = 0x02 → decode (Request.mk cmd bytes p) = .ok (.encodeRtu p)) ∧
    (cmd = 0x06 → decode (Request.mk cmd bytes p) = .ok (.encodeTcp p)) ∧
    (cmd = 0x03 → decode (Request.mk cmd bytes p) = .ok (.decodeRtu bytes)) ∧
    (cmd = 0x07 → decode (Request.mk cmd bytes p) = .ok (.decodeTcp bytes)) ∧
    (cmd ∉ ([0x00, 0x01, 0x05, 0x02, 0x06, 0x03, 0x07] : List Byte) →
      ∀ (s : State) (rest : List HostEvent), s.seeded = true →
        s.inbox = .command (Request.mk cmd bytes p) :: rest → ∃ e, step s = .refused (.descriptor e))

/-- Decode and encode agree: a well-formed instruction is read back from the request the host passes it in, a command
by the descriptor decoder, a function code row by the function code decoder. -/
def Obligations.EncodedInstructionDecodesBack : Prop :=
  ∀ i : Instr, WellFormed i →
    (i.isCommand = true → decode (encode i) = .ok i) ∧
    (i.isCommand = false → decodeFc (encode i) = some i)

/-- Decoding is faithful to the descriptor: what a request decodes to is a command whose own descriptor is the
request's. -/
def Obligations.DecodedCommandHasItsDescriptor : Prop :=
  ∀ (r : Request) (i : Instr), decode r = .ok i →
    i.isCommand = true ∧ (encode i).cmd = r.cmd ∧ decode (encode i) = .ok i

/-- A sanity statement: words written out from the encodings of rules R61 and R68 decode to what they stand for. -/
def Obligations.WordsOfTheTableDecode : Prop :=
  decodeTableWord 8 0x00 = some (.crc16 []) ∧
  decodeTableWord 8 0x07 = some (.decodeTcp []) ∧
  decodeTableWord 8 0x08 = none ∧
  decodeFc (Request.mk 0x06 [] (Params.mk 0x04 0x01 10 13 0 [] [])) =
    some (.fc01ReadCoils (.encode .tcp 0x04 ⟨10, 13⟩)) ∧
  decodeFc (Request.mk 0x03 [0x01, 0x06, 0x00, 0x01, 0x00, 0x03, 0x98, 0x0B] (Params.mk 0 0 0 0 0 [] [])) =
    some (.fc06WriteSingleRegister (.decode (.rtu 0x01 0x98 0x0B) [0x00, 0x01, 0x00, 0x03])) ∧
  decodeFc (Request.mk 0x03 [0x01, 0x83, 0x02, 0xC0, 0xF1] (Params.mk 0 0 0 0 0 [] [])) =
    some (.fcUnknown 0x83 (.decode (.rtu 0x01 0xC0 0xF1) [0x02]))

/-- A step runs the decoded command: with a command at the head of the queue and the block seeded, the step is `exec`
of what the descriptor decoder reads, at the state in which the command has been taken. The queue is the model's own
(log entry 6). -/
def Obligations.StepRunsDecodedCommand : Prop :=
  ∀ (s : State) (r : Request) (rest : List HostEvent) (i : Instr),
    s.seeded = true → s.inbox = .command r :: rest → decode r = .ok i →
    step s = exec i { s with inbox := rest }

/-- A step runs the function code row: where an accepted request meets a function code, the step is also `exec` of
that row, which is made of the code's own definitions without the dispatch. How the two layers of the opcode table meet is
the model's choice (log entry 3). -/
def Obligations.StepRunsFunctionCodeRow : Prop :=
  ∀ (s : State) (r : Request) (rest : List HostEvent) (i : Instr),
    s.seeded = true → s.inbox = .command r :: rest → accepted r = true → decodeFc r = some i →
    step s = exec i { s with inbox := rest }

/-- An operand sequence or list longer than `IN_CAP` is not accepted: the command is refused, with no next state; within
`IN_CAP` every length is accepted (rule R42). That sequences and lists each have a capacity, and that both lists of a
record are held to it, is the model's reading (log entries 2 and 5). -/
def Obligations.OverlongOperandIsRefused : Prop :=
  ∀ (s : State) (b : List Byte) (p : Params) (m : Mode),
    (Config.seqCap < b.length →
      exec (.crc16 b) s = .refused .operandTooLong ∧ exec (decodeOf m b) s = .refused .operandTooLong) ∧
    (b.length ≤ Config.seqCap →
      (∃ t, exec (.crc16 b) s = .next t) ∧ ∃ t, exec (decodeOf m b) s = .next t) ∧
    (Config.listCap < p.coils.length ∨ Config.listCap < p.regs.length →
      exec (validateOf m p) s = .refused .operandTooLong ∧ exec (encodeOf m p) s = .refused .operandTooLong) ∧
    (p.coils.length ≤ Config.listCap ∧ p.regs.length ≤ Config.listCap →
      (∃ t, exec (validateOf m p) s = .next t) ∧ ∃ t, exec (encodeOf m p) s = .next t)

/-- The function code rows refuse what their commands refuse: a list of 0x0F or 0x10, either list of the row of unknown
codes, and a frame, longer than `IN_CAP`. That the rows are instructions of their own is the model's choice (log entry 3), as
is the reading that both lists are held to the capacity (log entry 5). -/
def Obligations.OverlongRowOperandIsRefused : Prop :=
  ∀ (s : State) (m : Mode) (unit fc : Byte) (addr qty value : U16) (coils : List Bool) (regs : List U16)
    (sh : FrameShell) (body : List Byte),
    (Config.listCap < coils.length →
      exec (.fc0FWriteMultipleCoils (.encode m unit ⟨addr, qty, coils⟩)) s = .refused .operandTooLong ∧
      exec (.fc0FWriteMultipleCoils (.validate m unit ⟨addr, qty, coils⟩)) s = .refused .operandTooLong) ∧
    (Config.listCap < regs.length →
      exec (.fc10WriteMultipleRegisters (.encode m unit ⟨addr, qty, regs⟩)) s = .refused .operandTooLong ∧
      exec (.fc10WriteMultipleRegisters (.validate m unit ⟨addr, qty, regs⟩)) s = .refused .operandTooLong) ∧
    (Config.listCap < coils.length ∨ Config.listCap < regs.length →
      exec (.fcUnknown fc (.encode m unit ⟨addr, qty, value, coils, regs⟩)) s = .refused .operandTooLong ∧
      exec (.fcUnknown fc (.validate m unit ⟨addr, qty, value, coils, regs⟩)) s = .refused .operandTooLong) ∧
    (Config.seqCap < (sh.frame fc body).length →
      exec (rowOfFrame fc sh body) s = .refused .operandTooLong ∧
      exec (.fcUnknown fc (.decode sh body)) s = .refused .operandTooLong)

/-- With nothing issued the block is idle and holds TID (rule R235); a command before the first reset has no step
(rule R252). The queue of waiting commands and the fault are the model's choice (log entries 6 and 8). -/
def Obligations.IdleWaitsAndUnseededIsStuck : Prop :=
  ∀ (s : State) (r : Request) (rest : List HostEvent),
    (s.inbox = [] → step s = .next s) ∧
    (s.seeded = false → s.inbox = .command r :: rest → step s = .fault .commandBeforeReset)

/-! ## Reset and the transaction id -/

/-- A reset sets TID to a value in [1, 0xFFFE] and leaves the block ready, whatever was there before; so does the state
after reset. The draw is a free value of the model (log entry 1), and the statement rests on its range alone. -/
def Obligations.ResetSeedsTid : Prop :=
  (1 ≤ State.reset.tid.toNat ∧ State.reset.tid.toNat ≤ 0xFFFE ∧ State.reset.seeded = true) ∧
  ∀ (s : State) (rest : List HostEvent), s.inbox = .reset :: rest →
    ∃ t, step s = .next t ∧ 1 ≤ t.tid.toNat ∧ t.tid.toNat ≤ 0xFFFE ∧ t.seeded = true ∧
      t.inbox = rest ∧ t.outbox = s.outbox

/-- No state survives a loss of power: until the next reset a command has no step, and after that reset TID does not
depend on the TID before. A loss of power as an event of its own is the model's choice (log entry 4). -/
def Obligations.PowerLossForgetsTid : Prop :=
  ∀ (s s' : State) (rest : List HostEvent),
    s.inbox = .powerLoss :: .reset :: rest → s' = { s with tid := s'.tid } →
    ∃ t u, step s = .next t ∧ t.seeded = false ∧ step t = .next u ∧ u.seeded = true ∧
      ∃ t', step s' = .next t' ∧ step t' = .next u

/-- The invariant of rule R22 holds after reset. -/
def Obligations.ResetTidIsLegal : Prop := State.reset.TidLegal

/-- The invariant of rule R22 is kept by every step, from any state that meets it: while the block has state, TID is never 0. -/
def Obligations.StepKeepsTidLegal : Prop :=
  ∀ s t : State, s.TidLegal → step s = .next t → t.TidLegal

/-- The successor of a transaction id (rule R162). From any value in [1, 0xFFFF] it runs through every value in that
range and never takes the value 0, and it comes back only after all 65535 of them. -/
def Obligations.TidRunsThroughEveryId : Prop :=
  (∀ t : U16, (t = 0xFFFF → tidSucc t = 1) ∧ (t ≠ 0xFFFF → (tidSucc t).toNat = t.toNat + 1)) ∧
  (∀ t u : U16, t ≠ 0 → u ≠ 0 → ∃ k, k < 65535 ∧ tidSucc^[k] t = u) ∧
  (∀ (t : U16) (j k : Nat), t ≠ 0 → tidSucc^[k] t ≠ 0 ∧
    (tidSucc^[j] t = tidSucc^[k] t → j % 65535 = k % 65535))

/-- TID is changed only by a reset and by an ENCODE in mode TCP that ends OK, and then to its successor, as long as
power stays on. -/
def Obligations.OnlyResetAndTcpEncodeWriteTid : Prop :=
  ∀ s t : State, step s = .next t → t.seeded = true →
    t.tid = s.tid ∨ (∃ rest, s.inbox = .reset :: rest) ∨
    ∃ r rest p adu, s.inbox = .command r :: rest ∧ decode r = .ok (.encodeTcp p) ∧
      t.outbox = s.outbox ++ [.ok (.adu adu)] ∧ t.tid = tidSucc s.tid

/-- Rule R23: CRC16, VALIDATE, DECODE and ENCODE in mode RTU neither read TID nor change it: with any other TID they do the
same and leave that TID; a failed ENCODE leaves it unchanged; an ENCODE in mode TCP that ends OK writes its successor. -/
def Obligations.TidAccessByCommand : Prop :=
  ∀ (i : Instr) (s t : State), exec i s = .next t →
    (isTcpEncode i = false → t.tid = s.tid ∧ ∀ tid, exec i { s with tid := tid } = .next { t with tid := tid }) ∧
    (∀ e, t.outbox = s.outbox ++ [.raised e] → t.tid = s.tid) ∧
    (isTcpEncode i = true → ∀ v, t.outbox = s.outbox ++ [.ok v] → t.tid = tidSucc s.tid)

/-- The frame of every instruction: beyond TID, which `TidAccessByCommand` covers, a command that completes changes
nothing but the list of results, to which it adds exactly one. -/
def Obligations.CommandChangesOnlyTidAndResult : Prop :=
  ∀ (i : Instr) (s t : State), exec i s = .next t →
    ∃ r, t = { s with tid := t.tid, outbox := s.outbox ++ [r] }

/-- Errors are precise: a raised status leaves the state as it was, but for the status returned (rules R220, R225). -/
def Obligations.RaisedStatusLeavesStateAlone : Prop :=
  ∀ (i : Instr) (s t : State) (e : Raise), exec i s = .next t → t.outbox = s.outbox ++ [.raised e] →
    t = { s with outbox := s.outbox ++ [.raised e] }

/-- The result of every command but a TCP encode is a function of its operands alone (rule R31). -/
def Obligations.ResultDependsOnOperandsAlone : Prop :=
  ∀ i : Instr, isTcpEncode i = false →
    (∃ r, ∀ s, exec i s = .next { s with outbox := s.outbox ++ [r] }) ∨
    (∀ s, exec i s = .refused .operandTooLong)

/-- Commands are performed one at a time in issue order, each returning one result before the next, and every queue of
accepted commands runs to its end; TID counts the successful TCP encodes among them (rules R48, R231, R260). Result `k` is
the one command `k` returns when it is performed at the state its predecessors left, with the commands after it still
waiting. The queue and the list of results are the model's own (log entry 6). -/
def Obligations.QueueRunsToItsEnd : Prop :=
  ∀ (rs : List Request) (s : State), s.seeded = true → s.inbox = rs.map .command →
    (∀ r ∈ rs, accepted r = true) →
    ∃ (t : State) (results : List Result), Host.Core.run Sys2Proof.core rs.length s = .next t ∧
      t.inbox = [] ∧ t.outbox = s.outbox ++ results ∧ results.length = rs.length ∧
      t.tid = tidSucc^[(rs.filter drawsTid).length] s.tid ∧
      ∀ k r, rs[k]? = some r →
        ∃ (u v : State) (i : Instr) (result : Result),
          Host.Core.run Sys2Proof.core k s = .next u ∧ u.outbox = s.outbox ++ results.take k ∧
          decode r = .ok i ∧ exec i { u with inbox := (rs.drop (k + 1)).map .command } = .next v ∧
          Host.Core.run Sys2Proof.core (k + 1) s = .next v ∧
          results[k]? = some result ∧ v.outbox = u.outbox ++ [result]

/-! ## CRC16 -/

/-- Rule R100: one byte is XORed into the low 8 bits, then eight times the register shifts right and takes the XOR
with 0xA001 if its bit 0 was 1. -/
def Obligations.CrcByteStep : Prop :=
  ∀ (r : U16) (b : Byte),
    crcUpdate r b =
      (fun x : U16 => if x.getLsbD 0 = true then (x >>> 1) ^^^ 0xA001 else x >>> 1)^[8] (r ^^^ b.setWidth 16)

/-- Rule R101: the descriptor 0x00 selects CRC16, which completes on every accepted sequence with the register after the
last byte, from 0xFFFF; empty input gives 0xFFFF and each byte is one step; a longer sequence is refused; nothing else
changes. The rule's worked example is the last clause. -/
def Obligations.Crc16ReturnsTheRegister : Prop :=
  (∀ (data : List Byte) (p : Params) (s : State),
    decode (Request.mk 0x00 data p) = .ok (.crc16 data) ∧
    (data.length ≤ Config.seqCap →
      exec (.crc16 data) s = .next { s with outbox := s.outbox ++ [.ok (.crc (crc16 data))] }) ∧
    (Config.seqCap < data.length → exec (.crc16 data) s = .refused .operandTooLong)) ∧
  crc16 [] = 0xFFFF ∧ (∀ (a : List Byte) (b : Byte), crc16 (a ++ [b]) = crcUpdate (crc16 a) b) ∧
  crc16 [0x01, 0x03, 0x00, 0x01, 0x00, 0x01] = 0xCAD5

/-- Rule R103: a sequence with its own CRC appended, low byte first, has CRC 0. -/
def Obligations.FrameCheckIsZero : Prop :=
  ∀ a : List Byte, crc16 (a ++ [lo8 (crc16 a), hi8 (crc16 a)]) = 0x0000

/-- Any change confined to two neighbouring bytes of a sequence changes its CRC. -/
def Obligations.CrcSeesEveryTwoByteBurst : Prop :=
  ∀ (a c : List Byte) (x y x' y' : Byte), (x, y) ≠ (x', y') →
    crc16 (a ++ [x, y] ++ c) ≠ crc16 (a ++ [x', y'] ++ c)

/-! ## VALIDATE -/

/-- Rule R131, for the commands and for the rows of 0x01 and 0x02. -/
def Obligations.ValidateReadBits : Prop :=
  ∀ (m : Mode) (p : Params) (s : State),
    let r : Result := if 1 ≤ p.qty.toNat ∧ p.qty.toNat ≤ 2000 then .ok .valid else .raised (.paramInvalid 0x04)
    let t : State := { s with outbox := s.outbox ++ [r] }
    (Fits p → p.fc = 0x01 ∨ p.fc = 0x02 → exec (validateOf m p) s = .next t) ∧
    exec (.fc01ReadCoils (.validate m p.unit ⟨p.addr, p.qty⟩)) s = .next t ∧
    exec (.fc02ReadDiscreteInputs (.validate m p.unit ⟨p.addr, p.qty⟩)) s = .next t

/-- Rule R132, for the commands and for the rows of 0x03 and 0x04. -/
def Obligations.ValidateReadRegisters : Prop :=
  ∀ (m : Mode) (p : Params) (s : State),
    let r : Result := if 1 ≤ p.qty.toNat ∧ p.qty.toNat ≤ 125 then .ok .valid else .raised (.paramInvalid 0x04)
    let t : State := { s with outbox := s.outbox ++ [r] }
    (Fits p → p.fc = 0x03 ∨ p.fc = 0x04 → exec (validateOf m p) s = .next t) ∧
    exec (.fc03ReadHoldingRegisters (.validate m p.unit ⟨p.addr, p.qty⟩)) s = .next t ∧
    exec (.fc04ReadInputRegisters (.validate m p.unit ⟨p.addr, p.qty⟩)) s = .next t

/-- Rules R133 and R134, for the commands and for the rows of 0x05 and 0x06. -/
def Obligations.ValidateSingleWrites : Prop :=
  ∀ (m : Mode) (p : Params) (s : State),
    let r : Result := if p.value = 0xFF00 ∨ p.value = 0x0000 then .ok .valid else .raised (.paramInvalid 0x08)
    let t : State := { s with outbox := s.outbox ++ [r] }
    let ok : State := { s with outbox := s.outbox ++ [.ok .valid] }
    (Fits p → p.fc = 0x05 → exec (validateOf m p) s = .next t) ∧
    exec (.fc05WriteSingleCoil (.validate m p.unit ⟨p.addr, p.value⟩)) s = .next t ∧
    (Fits p → p.fc = 0x06 → exec (validateOf m p) s = .next ok) ∧
    exec (.fc06WriteSingleRegister (.validate m p.unit ⟨p.addr, p.value⟩)) s = .next ok

/-- Rules R135 and R136: quantity and list length are checked independently (rule R139). -/
def Obligations.ValidateMultipleWrites : Prop :=
  ∀ (m : Mode) (p : Params) (s : State),
    let answer : Byte → State := fun mask =>
      { s with outbox := s.outbox ++ [if mask = 0 then .ok .valid else .raised (.paramInvalid mask)] }
    let coilMask : Byte :=
      (if 1 ≤ p.qty.toNat ∧ p.qty.toNat ≤ 1968 then 0 else 0x04) ||| (if p.coils.length = p.qty.toNat then 0 else 0x10)
    let regMask : Byte :=
      (if 1 ≤ p.qty.toNat ∧ p.qty.toNat ≤ 123 then 0 else 0x04) ||| (if p.regs.length = p.qty.toNat then 0 else 0x10)
    Fits p →
      (p.fc = 0x0F → exec (validateOf m p) s = .next (answer coilMask)) ∧
      exec (.fc0FWriteMultipleCoils (.validate m p.unit ⟨p.addr, p.qty, p.coils⟩)) s = .next (answer coilMask) ∧
      (p.fc = 0x10 → exec (validateOf m p) s = .next (answer regMask)) ∧
      exec (.fc10WriteMultipleRegisters (.validate m p.unit ⟨p.addr, p.qty, p.regs⟩)) s = .next (answer regMask)

/-- A function code that is not one of the eight: VALIDATE and ENCODE end with UNSUPPORTED_FC and check no field, in
either mode, as a command and as the row of unknown codes (rules R77, R130, R150). -/
def Obligations.UnsupportedCodeIsReported : Prop :=
  ∀ (m : Mode) (p : Params) (s : State), Fits p → p.fc ∉ supportedCodes →
    let t : State := { s with outbox := s.outbox ++ [.raised .unsupportedFc] }
    exec (validateOf m p) s = .next t ∧ exec (encodeOf m p) s = .next t ∧
    exec (.fcUnknown p.fc (.validate m p.unit ⟨p.addr, p.qty, p.value, p.coils, p.regs⟩)) s = .next t ∧
    exec (.fcUnknown p.fc (.encode m p.unit ⟨p.addr, p.qty, p.value, p.coils, p.regs⟩)) s = .next t

/-- VALIDATE answers OK exactly on the records the validation table of the spec passes, in either mode, and completes on
every other record with a raised status. -/
def Obligations.ValidatePassesExactlyTheTable : Prop :=
  ∀ (m : Mode) (p : Params) (s : State), Fits p →
    (Valid p → exec (validateOf m p) s = .next { s with outbox := s.outbox ++ [.ok .valid] }) ∧
    (¬ Valid p → ∃ e, exec (validateOf m p) s = .next { s with outbox := s.outbox ++ [.raised e] })

/-- Rule R64: a command reads only the fields its function code uses and ignores the others, whatever they hold. -/
def Obligations.UnusedFieldsAreIgnored : Prop :=
  ∀ (m : Mode) (p q : Params) (s : State), Fits p → Fits q → SameUsedFields p q →
    exec (validateOf m p) s = exec (validateOf m q) s ∧ exec (encodeOf m p) s = exec (encodeOf m q) s

/-- A violation mask is never empty, never sets bits 7 to 5, and, the operands being typed, never sets UNIT or ADDR
(rules R131 to R138). -/
def Obligations.MaskHasOnlyFieldBits : Prop :=
  ∀ (i : Instr) (s t : State) (mask : Byte), exec i s = .next t →
    t.outbox = s.outbox ++ [.raised (.paramInvalid mask)] → mask ≠ 0 ∧ mask &&& 0xE3 = 0

/-! ## ENCODE -/

/-- ENCODE runs VALIDATE's checks first: it raises what VALIDATE raises, and only that, and builds a frame exactly where
VALIDATE answers OK (rules R150, R223, R253). -/
def Obligations.EncodeRepeatsValidation : Prop :=
  ∀ (m : Mode) (p : Params) (s : State), Fits p →
    (∀ e, exec (validateOf m p) s = .next { s with outbox := s.outbox ++ [.raised e] } ↔
      exec (encodeOf m p) s = .next { s with outbox := s.outbox ++ [.raised e] }) ∧
    (exec (validateOf m p) s = .next { s with outbox := s.outbox ++ [.ok .valid] } ↔
      ∃ t adu, exec (encodeOf m p) s = .next t ∧ t.outbox = s.outbox ++ [.ok (.adu adu)])

/-- The RTU frame of the READ and WRITE1 shapes (rules R68, R69, R151 to R156, R160), built by ENCODE.RTU. -/
def Obligations.EncodeRtuFixedShapes : Prop :=
  ∀ (p : Params) (s : State), Fits p → Valid p → p.fc ≠ 0x0F → p.fc ≠ 0x10 →
    let d : U16 := if p.fc = 0x05 ∨ p.fc = 0x06 then p.value else p.qty
    let a : List Byte := [p.unit, p.fc, hi8 p.addr, lo8 p.addr, hi8 d, lo8 d]
    exec (.encodeRtu p) s =
      .next { s with outbox := s.outbox ++ [.ok (.adu (a ++ [lo8 (crc16 a), hi8 (crc16 a)]))] }

/-- The TCP frame of the READ and WRITE1 shapes (rules R68, R70, R75, R161), built by ENCODE.TCP, which leaves the
successor in TID. -/
def Obligations.EncodeTcpFixedShapes : Prop :=
  ∀ (p : Params) (s : State), Fits p → Valid p → p.fc ≠ 0x0F → p.fc ≠ 0x10 →
    let d : U16 := if p.fc = 0x05 ∨ p.fc = 0x06 then p.value else p.qty
    exec (.encodeTcp p) s =
      .next { s with
        tid := tidSucc s.tid
        outbox := s.outbox ++ [.ok (.adu
          [hi8 s.tid, lo8 s.tid, 0x00, 0x00, 0x00, 0x06, p.unit, p.fc, hi8 p.addr, lo8 p.addr, hi8 d, lo8 d])] }

/-- Rules R73 and R157: the RTU and TCP frames of 0x0F, coil `i` in bit `i mod 8` of packed byte `i div 8`, the bits above
the last coil 0. -/
def Obligations.EncodeMultipleCoils : Prop :=
  ∀ (p : Params) (s : State), Fits p → Valid p → p.fc = 0x0F →
    ∃ (bc : Nat) (pk : List Byte), bc = (p.qty.toNat + 7) / 8 ∧ pk.length = bc ∧
      (∀ i, i < p.qty.toNat → (pk.getD (i / 8) 0).getLsbD (i % 8) = p.coils.getD i false) ∧
      (∀ i, p.qty.toNat ≤ i → i < 8 * bc → (pk.getD (i / 8) 0).getLsbD (i % 8) = false) ∧
      let pdu : List Byte := [0x0F, hi8 p.addr, lo8 p.addr, hi8 p.qty, lo8 p.qty, BitVec.ofNat 8 bc] ++ pk
      let c : U16 := crc16 ([p.unit] ++ pdu)
      let len : U16 := BitVec.ofNat 16 (7 + bc)
      exec (.encodeRtu p) s =
        .next { s with outbox := s.outbox ++ [.ok (.adu ([p.unit] ++ pdu ++ [lo8 c, hi8 c]))] } ∧
      exec (.encodeTcp p) s =
        .next { s with
          tid := tidSucc s.tid
          outbox := s.outbox ++
            [.ok (.adu ([hi8 s.tid, lo8 s.tid, 0x00, 0x00, hi8 len, lo8 len, p.unit] ++ pdu))] }

/-- Rule R158: the RTU and TCP frames of 0x10, the register values in list order, each high byte first. -/
def Obligations.EncodeMultipleRegisters : Prop :=
  ∀ (p : Params) (s : State), Fits p → Valid p → p.fc = 0x10 →
    ∃ (bc : Nat) (d : List Byte), bc = p.qty.toNat * 2 ∧ d.length = bc ∧
      (∀ j, j < p.qty.toNat → d.getD (2 * j) 0 = hi8 (p.regs.getD j 0) ∧ d.getD (2 * j + 1) 0 = lo8 (p.regs.getD j 0)) ∧
      let pdu : List Byte := [0x10, hi8 p.addr, lo8 p.addr, hi8 p.qty, lo8 p.qty, BitVec.ofNat 8 bc] ++ d
      let c : U16 := crc16 ([p.unit] ++ pdu)
      let len : U16 := BitVec.ofNat 16 (7 + bc)
      exec (.encodeRtu p) s =
        .next { s with outbox := s.outbox ++ [.ok (.adu ([p.unit] ++ pdu ++ [lo8 c, hi8 c]))] } ∧
      exec (.encodeTcp p) s =
        .next { s with
          tid := tidSucc s.tid
          outbox := s.outbox ++
            [.ok (.adu ([hi8 s.tid, lo8 s.tid, 0x00, 0x00, hi8 len, lo8 len, p.unit] ++ pdu))] }

/-- The function code rows of the READ and WRITE1 shapes complete on their own operands: each builds its RTU frame, with
its own function code byte. -/
def Obligations.FixedShapeRowsEncode : Prop :=
  ∀ (unit : Byte) (addr d : U16) (s : State),
    let built : Byte → State := fun fc =>
      let a : List Byte := [unit, fc, hi8 addr, lo8 addr, hi8 d, lo8 d]
      { s with outbox := s.outbox ++ [.ok (.adu (a ++ [lo8 (crc16 a), hi8 (crc16 a)]))] }
    (1 ≤ d.toNat → d.toNat ≤ 2000 →
      exec (.fc01ReadCoils (.encode .rtu unit ⟨addr, d⟩)) s = .next (built 0x01) ∧
      exec (.fc02ReadDiscreteInputs (.encode .rtu unit ⟨addr, d⟩)) s = .next (built 0x02)) ∧
    (1 ≤ d.toNat → d.toNat ≤ 125 →
      exec (.fc03ReadHoldingRegisters (.encode .rtu unit ⟨addr, d⟩)) s = .next (built 0x03) ∧
      exec (.fc04ReadInputRegisters (.encode .rtu unit ⟨addr, d⟩)) s = .next (built 0x04)) ∧
    (d = 0xFF00 ∨ d = 0x0000 → exec (.fc05WriteSingleCoil (.encode .rtu unit ⟨addr, d⟩)) s = .next (built 0x05)) ∧
    exec (.fc06WriteSingleRegister (.encode .rtu unit ⟨addr, d⟩)) s = .next (built 0x06)

/-- The same rows in mode TCP: the header carries TID and the MBAP length 6, and TID moves on. -/
def Obligations.FixedShapeRowsEncodeTcp : Prop :=
  ∀ (unit : Byte) (addr d : U16) (s : State),
    let built : Byte → State := fun fc =>
      { s with
        tid := tidSucc s.tid
        outbox := s.outbox ++ [.ok (.adu
          [hi8 s.tid, lo8 s.tid, 0x00, 0x00, 0x00, 0x06, unit, fc, hi8 addr, lo8 addr, hi8 d, lo8 d])] }
    (1 ≤ d.toNat → d.toNat ≤ 2000 →
      exec (.fc01ReadCoils (.encode .tcp unit ⟨addr, d⟩)) s = .next (built 0x01) ∧
      exec (.fc02ReadDiscreteInputs (.encode .tcp unit ⟨addr, d⟩)) s = .next (built 0x02)) ∧
    (1 ≤ d.toNat → d.toNat ≤ 125 →
      exec (.fc03ReadHoldingRegisters (.encode .tcp unit ⟨addr, d⟩)) s = .next (built 0x03) ∧
      exec (.fc04ReadInputRegisters (.encode .tcp unit ⟨addr, d⟩)) s = .next (built 0x04)) ∧
    (d = 0xFF00 ∨ d = 0x0000 → exec (.fc05WriteSingleCoil (.encode .tcp unit ⟨addr, d⟩)) s = .next (built 0x05)) ∧
    exec (.fc06WriteSingleRegister (.encode .tcp unit ⟨addr, d⟩)) s = .next (built 0x06)

/-- The rows of 0x0F and 0x10 complete on their own operands: each returns a frame whose PDU begins with its fields and
has the length rule R78 gives, in either mode. -/
def Obligations.CountedShapeRowsEncode : Prop :=
  ∀ (m : Mode) (unit : Byte) (addr qty : U16) (coils : List Bool) (regs : List U16) (s : State),
    let shell : Nat := match m with
      | .rtu => 1
      | .tcp => 7
    let tail : Nat := match m with
      | .rtu => 2
      | .tcp => 0
    (1 ≤ qty.toNat → qty.toNat ≤ 1968 → coils.length = qty.toNat →
      ∃ t adu, exec (.fc0FWriteMultipleCoils (.encode m unit ⟨addr, qty, coils⟩)) s = .next t ∧
        t.outbox = s.outbox ++ [.ok (.adu adu)] ∧ adu.length = shell + 6 + (qty.toNat + 7) / 8 + tail ∧
        (adu.drop shell).take 6 =
          [0x0F, hi8 addr, lo8 addr, hi8 qty, lo8 qty, BitVec.ofNat 8 ((qty.toNat + 7) / 8)]) ∧
    (1 ≤ qty.toNat → qty.toNat ≤ 123 → regs.length = qty.toNat →
      ∃ t adu, exec (.fc10WriteMultipleRegisters (.encode m unit ⟨addr, qty, regs⟩)) s = .next t ∧
        t.outbox = s.outbox ++ [.ok (.adu adu)] ∧ adu.length = shell + 6 + 2 * qty.toNat + tail ∧
        (adu.drop shell).take 6 = [0x10, hi8 addr, lo8 addr, hi8 qty, lo8 qty, BitVec.ofNat 8 (2 * qty.toNat)])

/-- Rule R163: ENCODE.RTU is a function of its operands alone; two ENCODE.TCP of one valid record, one after the other,
return frames that differ only in their first two bytes, which hold `t` and its successor. -/
def Obligations.ConsecutiveTcpEncodesDifferOnlyInId : Prop :=
  (∀ p : Params, Fits p → ∃ r, ∀ s, exec (.encodeRtu p) s = .next { s with outbox := s.outbox ++ [r] }) ∧
  ∀ (p : Params) (s : State), Fits p → Valid p →
    ∃ (t u : State) (body : List Byte),
      exec (.encodeTcp p) s = .next t ∧ exec (.encodeTcp p) t = .next u ∧
      u.outbox = s.outbox ++ [.ok (.adu ([hi8 s.tid, lo8 s.tid] ++ body)),
        .ok (.adu ([hi8 (tidSucc s.tid), lo8 (tidSucc s.tid)] ++ body))]

/-- A frame ENCODE.RTU returns passes the frame check of rule R103. -/
def Obligations.EncodedRtuFramePassesCheck : Prop :=
  ∀ (p : Params) (s : State), Fits p → Valid p →
    ∃ adu, exec (.encodeRtu p) s = .next { s with outbox := s.outbox ++ [.ok (.adu adu)] } ∧ crc16 adu = 0x0000

/-- Rule R78: the length of every frame ENCODE returns, by function code, at most 255 (RTU) and 259 (TCP) bytes. -/
def Obligations.EncodedFrameLength : Prop :=
  ∀ (m : Mode) (p : Params) (s : State), Fits p → Valid p →
    let pduLength : Nat :=
      if p.fc = 0x0F then 6 + (p.qty.toNat + 7) / 8 else if p.fc = 0x10 then 6 + 2 * p.qty.toNat else 5
    ∃ t adu, exec (encodeOf m p) s = .next t ∧ t.outbox = s.outbox ++ [.ok (.adu adu)] ∧
      (m = .rtu → adu.length = pduLength + 3 ∧ adu.length ≤ 255) ∧
      (m = .tcp → adu.length = pduLength + 7 ∧ adu.length ≤ 259)

/-! ## DECODE -/

/-- The status of DECODE.RTU (rules R183, R194, R224) is that of the first check that fails, in cursor order; it is OK
exactly where none does. -/
def Obligations.DecodeRtuStatus : Prop :=
  ∀ (f : List Byte) (s : State), f.length ≤ Config.seqCap →
    let raised : Raise → Prop := fun e => exec (.decodeRtu f) s = .next { s with outbox := s.outbox ++ [.raised e] }
    let fits : Bool := shapeFits (f.getD 1 0) (f.length - 4) (f.getD 6 0)
    (f.length = 0 → raised .incompleteHeader) ∧
    (f.length = 1 → raised .missingFunctionCode) ∧
    (f.length = 2 ∨ f.length = 3 → raised .truncated) ∧
    (4 ≤ f.length → fits = false → raised .truncated) ∧
    (4 ≤ f.length → fits = true →
      ∃ segs, exec (.decodeRtu f) s = .next { s with outbox := s.outbox ++ [.ok (.segments segs)] })

/-- The same for DECODE.TCP (rules R184, R194, R224). -/
def Obligations.DecodeTcpStatus : Prop :=
  ∀ (f : List Byte) (s : State), f.length ≤ Config.seqCap →
    let raised : Raise → Prop := fun e => exec (.decodeTcp f) s = .next { s with outbox := s.outbox ++ [.raised e] }
    let fits : Bool := shapeFits (f.getD 7 0) (f.length - 8) (f.getD 12 0)
    (f.length < 7 → raised .incompleteHeader) ∧
    (f.length = 7 → raised .missingFunctionCode) ∧
    (8 ≤ f.length → fits = false → raised .truncated) ∧
    (8 ≤ f.length → fits = true →
      ∃ segs, exec (.decodeTcp f) s = .next { s with outbox := s.outbox ++ [.ok (.segments segs)] })

/-- The segments of an RTU frame of a READ or WRITE1 shape, with any bytes after the shape and any CRC (rules R186 to
R191, R195, R197), as a command. -/
def Obligations.DecodeRtuFixedShapes : Prop :=
  ∀ (unit fc a1 a0 d1 d0 lo hi : Byte) (extra : List Byte) (s : State),
    fc ∈ ([0x01, 0x02, 0x03, 0x04, 0x05, 0x06] : List Byte) → extra.length + 8 ≤ Config.seqCap →
    let second : Kind := if fc = 0x05 ∨ fc = 0x06 then .value else .qty
    exec (.decodeRtu ([unit, fc, a1, a0, d1, d0] ++ extra ++ [lo, hi])) s =
      .next { s with outbox := s.outbox ++ [.ok (.segments (
        [⟨.slaveID, 0, 1, some (unit.setWidth 16)⟩, ⟨.func, 1, 1, some (fc.setWidth 16)⟩,
         ⟨.addr, 2, 2, some (be16 a1 a0)⟩, ⟨second, 4, 2, some (be16 d1 d0)⟩] ++
        remainderSegments 6 extra.length ++ [⟨.crc, 6 + extra.length, 2, some (be16 hi lo)⟩]))] }

/-- The segments of a TCP frame of a READ or WRITE1 shape: header fields as they stand, never checked (rule R184), and
the bytes after the shape (rule R195). -/
def Obligations.DecodeTcpFixedShapes : Prop :=
  ∀ (t1 t0 p1 p0 l1 l0 unit fc a1 a0 d1 d0 : Byte) (extra : List Byte) (s : State),
    fc ∈ ([0x01, 0x02, 0x03, 0x04, 0x05, 0x06] : List Byte) → extra.length + 12 ≤ Config.seqCap →
    let second : Kind := if fc = 0x05 ∨ fc = 0x06 then .value else .qty
    exec (.decodeTcp ([t1, t0, p1, p0, l1, l0, unit, fc, a1, a0, d1, d0] ++ extra)) s =
      .next { s with outbox := s.outbox ++ [.ok (.segments (
        [⟨.transID, 0, 2, some (be16 t1 t0)⟩, ⟨.protoID, 2, 2, some (be16 p1 p0)⟩, ⟨.length, 4, 2, some (be16 l1 l0)⟩,
         ⟨.unitID, 6, 1, some (unit.setWidth 16)⟩, ⟨.func, 7, 1, some (fc.setWidth 16)⟩,
         ⟨.addr, 8, 2, some (be16 a1 a0)⟩, ⟨second, 10, 2, some (be16 d1 d0)⟩] ++
        remainderSegments 12 extra.length))] }

/-- The segments of a frame of 0x0F or 0x10, in either mode (rules R192 to R195): Addr, Qty and ByteCount; then one
CoilData for each data byte, or one RegValue for every two and a Data segment for an odd last one; the count is not
compared with Qty. -/
def Obligations.DecodeCountedShapes : Prop :=
  ∀ (sh : FrameShell) (fc a1 a0 q1 q0 bc : Byte) (data extra : List Byte) (s : State),
    fc = 0x0F ∨ fc = 0x10 → data.length = bc.toNat →
    let body : List Byte := [a1, a0, q1, q0, bc] ++ data ++ extra
    let f : List Byte := sh.frame fc body
    let at0 : Nat := match sh.mode with
      | .rtu => 1
      | .tcp => 7
    f.length ≤ Config.seqCap →
    ∃ front back : List Segment,
      exec (decodeOf sh.mode f) s = .next { s with outbox := s.outbox ++ [.ok (.segments (front ++
        [⟨.func, at0, 1, some (fc.setWidth 16)⟩, ⟨.addr, at0 + 1, 2, some (be16 a1 a0)⟩,
         ⟨.qty, at0 + 3, 2, some (be16 q1 q0)⟩, ⟨.byteCount, at0 + 5, 1, some (bc.setWidth 16)⟩] ++
        (if fc = 0x0F then runSegments f .coilData (at0 + 6) 1 bc.toNat
         else runSegments f .regValue (at0 + 6) 2 (bc.toNat / 2) ++
           (if bc.toNat % 2 = 1 then [⟨.data, at0 + 6 + bc.toNat - 1, 1, none⟩] else [])) ++
        remainderSegments (at0 + 6 + bc.toNat) extra.length ++ back))] } ∧
      (sh.mode = .rtu → front.map Segment.kind = [.slaveID] ∧ back.map Segment.kind = [.crc]) ∧
      (sh.mode = .tcp → front.map Segment.kind = [.transID, .protoID, .length, .unitID] ∧ back = [])

/-- Rule R196: a function code that is not one of the eight is no error; what follows it, up to the CRC in an RTU frame,
is one Data segment, and none if nothing follows. -/
def Obligations.DecodeUnknownCodeIsOpaque : Prop :=
  ∀ (unit fc lo hi t1 t0 p1 p0 l1 l0 : Byte) (body : List Byte) (s : State),
    fc ∉ supportedCodes → body.length + 8 ≤ Config.seqCap →
    exec (.decodeRtu ([unit, fc] ++ body ++ [lo, hi])) s =
      .next { s with outbox := s.outbox ++ [.ok (.segments (
        [⟨.slaveID, 0, 1, some (unit.setWidth 16)⟩, ⟨.func, 1, 1, some (fc.setWidth 16)⟩] ++
        remainderSegments 2 body.length ++ [⟨.crc, 2 + body.length, 2, some (be16 hi lo)⟩]))] } ∧
    exec (.decodeTcp ([t1, t0, p1, p0, l1, l0, unit, fc] ++ body)) s =
      .next { s with outbox := s.outbox ++ [.ok (.segments (
        [⟨.transID, 0, 2, some (be16 t1 t0)⟩, ⟨.protoID, 2, 2, some (be16 p1 p0)⟩, ⟨.length, 4, 2, some (be16 l1 l0)⟩,
         ⟨.unitID, 6, 1, some (unit.setWidth 16)⟩, ⟨.func, 7, 1, some (fc.setWidth 16)⟩] ++
        remainderSegments 8 body.length))] }

/-- The function code rows read a frame of either shell. The READ and WRITE1 rows complete on every PDU that holds their two
fields, each with its own function code byte in the frame and the bytes after the fields as one Data segment, and raise
TRUNCATED on a shorter one; the row of unknown codes completes on any PDU and shows it as one Data segment, none if it is
empty. That the rows are instructions of their own is the model's choice (log entry 3). -/
def Obligations.RowsDecodeTheirFrames : Prop :=
  ∀ (sh : FrameShell) (body : List Byte) (s : State), sh.overhead + body.length ≤ Config.seqCap →
    let returns : Result → State := fun r => { s with outbox := s.outbox ++ [r] }
    let shown : Byte → List Segment → Result := fun fc fields => .ok (.segments (
      headerSegments sh ++ [⟨.func, pduAt sh, 1, some (fc.setWidth 16)⟩] ++ fields ++
        trailerSegments (pduAt sh + 1 + body.length) sh))
    (∀ (a1 a0 d1 d0 : Byte) (extra : List Byte), body = [a1, a0, d1, d0] ++ extra →
      let fields : Kind → List Segment := fun second =>
        [⟨.addr, pduAt sh + 1, 2, some (be16 a1 a0)⟩, ⟨second, pduAt sh + 3, 2, some (be16 d1 d0)⟩] ++
          remainderSegments (pduAt sh + 5) extra.length
      exec (.fc01ReadCoils (.decode sh body)) s = .next (returns (shown 0x01 (fields .qty))) ∧
      exec (.fc02ReadDiscreteInputs (.decode sh body)) s = .next (returns (shown 0x02 (fields .qty))) ∧
      exec (.fc03ReadHoldingRegisters (.decode sh body)) s = .next (returns (shown 0x03 (fields .qty))) ∧
      exec (.fc04ReadInputRegisters (.decode sh body)) s = .next (returns (shown 0x04 (fields .qty))) ∧
      exec (.fc05WriteSingleCoil (.decode sh body)) s = .next (returns (shown 0x05 (fields .value))) ∧
      exec (.fc06WriteSingleRegister (.decode sh body)) s = .next (returns (shown 0x06 (fields .value)))) ∧
    (body.length < 4 →
      exec (.fc01ReadCoils (.decode sh body)) s = .next (returns (.raised .truncated)) ∧
      exec (.fc02ReadDiscreteInputs (.decode sh body)) s = .next (returns (.raised .truncated)) ∧
      exec (.fc03ReadHoldingRegisters (.decode sh body)) s = .next (returns (.raised .truncated)) ∧
      exec (.fc04ReadInputRegisters (.decode sh body)) s = .next (returns (.raised .truncated)) ∧
      exec (.fc05WriteSingleCoil (.decode sh body)) s = .next (returns (.raised .truncated)) ∧
      exec (.fc06WriteSingleRegister (.decode sh body)) s = .next (returns (.raised .truncated))) ∧
    ∀ fc : Byte, fc ∉ supportedCodes →
      exec (.fcUnknown fc (.decode sh body)) s =
        .next (returns (shown fc (remainderSegments (pduAt sh + 1) body.length)))

/-- Rule R197: the CRC is shown, low byte first, and never verified: the last two bytes of an RTU frame change nothing
but the value of the last segment. -/
def Obligations.DecodeDoesNotVerifyCrc : Prop :=
  ∀ (front : List Byte) (lo hi lo' hi' : Byte) (s : State) (segs : List Segment),
    front.length + 2 ≤ Config.seqCap →
    exec (.decodeRtu (front ++ [lo, hi])) s = .next { s with outbox := s.outbox ++ [.ok (.segments segs)] } →
    ∃ init, segs = init ++ [⟨.crc, front.length, 2, some (be16 hi lo)⟩] ∧
      exec (.decodeRtu (front ++ [lo', hi'])) s = .next { s with
        outbox := s.outbox ++ [.ok (.segments (init ++ [⟨.crc, front.length, 2, some (be16 hi' lo')⟩]))] }

/-- Rule R201: on status OK the segments are in increasing order of `off`, do not overlap, and cover every index of the
frame exactly once. -/
def Obligations.SegmentsPartitionTheFrame : Prop :=
  ∀ (m : Mode) (f : List Byte) (s : State) (segs : List Segment),
    exec (decodeOf m f) s = .next { s with outbox := s.outbox ++ [.ok (.segments segs)] } →
    Tiles 0 f.length segs

/-- The value of every segment is read from the bytes it covers, as its kind and length say, and its length is
the one its kind has (rules R181, R198). -/
def Obligations.SegmentValuesComeFromTheFrame : Prop :=
  ∀ (m : Mode) (f : List Byte) (s : State) (segs : List Segment),
    exec (decodeOf m f) s = .next { s with outbox := s.outbox ++ [.ok (.segments segs)] } →
    ∀ g ∈ segs, (∀ w, g.kind.width = some w → g.len = w) ∧
      (g.kind = .data → g.value = none) ∧
      (g.kind = .crc → g.value = some (be16 (f.getD (g.off + 1) 0) (f.getD g.off 0))) ∧
      (g.kind ≠ .data → g.kind ≠ .crc → g.len = 1 → g.value = some ((f.getD g.off 0).setWidth 16)) ∧
      (g.kind ≠ .data → g.kind ≠ .crc → g.len = 2 → g.value = some (be16 (f.getD g.off 0) (f.getD (g.off + 1) 0)))

/-- The round trip in mode RTU (rule R164): DECODE of what ENCODE returns gives back every field of the record the function code uses,
the unit id, and the CRC the encoder computed. -/
def Obligations.RoundTripRtu : Prop :=
  ∀ (p : Params) (s : State), Fits p → Valid p →
    ∃ (t u : State) (adu : List Byte) (segs : List Segment),
      exec (.encodeRtu p) s = .next t ∧ t.outbox = s.outbox ++ [.ok (.adu adu)] ∧
      exec (.decodeRtu adu) t = .next u ∧ u.outbox = t.outbox ++ [.ok (.segments segs)] ∧
      valuesOf .slaveID segs = [p.unit.setWidth 16] ∧ valuesOf .func segs = [p.fc.setWidth 16] ∧
      valuesOf .addr segs = [p.addr] ∧
      valuesOf .qty segs = (if p.fc = 0x05 ∨ p.fc = 0x06 then [] else [p.qty]) ∧
      valuesOf .value segs = (if p.fc = 0x05 ∨ p.fc = 0x06 then [p.value] else []) ∧
      valuesOf .regValue segs = (if p.fc = 0x10 then p.regs else []) ∧
      (p.fc = 0x0F → ∀ i, i < p.qty.toNat →
        ((valuesOf .coilData segs).getD (i / 8) 0).getLsbD (i % 8) = p.coils.getD i false) ∧
      valuesOf .crc segs = [crc16 (adu.take (adu.length - 2))]

/-- The round trip in mode TCP (rule R164): the header shows the transaction id drawn, protocol id 0 and the MBAP length, and
the other segments give back the fields and the unit id. -/
def Obligations.RoundTripTcp : Prop :=
  ∀ (p : Params) (s : State), Fits p → Valid p →
    ∃ (t u : State) (adu : List Byte) (segs : List Segment),
      exec (.encodeTcp p) s = .next t ∧ t.outbox = s.outbox ++ [.ok (.adu adu)] ∧
      exec (.decodeTcp adu) t = .next u ∧ u.outbox = t.outbox ++ [.ok (.segments segs)] ∧
      valuesOf .transID segs = [s.tid] ∧ valuesOf .protoID segs = [0x0000] ∧
      valuesOf .length segs = [BitVec.ofNat 16 (adu.length - 6)] ∧
      valuesOf .unitID segs = [p.unit.setWidth 16] ∧ valuesOf .func segs = [p.fc.setWidth 16] ∧
      valuesOf .addr segs = [p.addr] ∧
      valuesOf .qty segs = (if p.fc = 0x05 ∨ p.fc = 0x06 then [] else [p.qty]) ∧
      valuesOf .value segs = (if p.fc = 0x05 ∨ p.fc = 0x06 then [p.value] else []) ∧
      valuesOf .regValue segs = (if p.fc = 0x10 then p.regs else []) ∧
      (p.fc = 0x0F → ∀ i, i < p.qty.toNat →
        ((valuesOf .coilData segs).getD (i / 8) 0).getLsbD (i % 8) = p.coils.getD i false)

/-! ## The host's text functions -/

/-- `formatHex` of a natural number writes at least `width` digits, none of them lowercase, and they read back as the number:
no digit is lost (rule R111). -/
def Obligations.FormatHexReadsBack : Prop :=
  ∀ (n width : Nat), ∃ text, formatHex (.int (.ofNat n)) width = some text ∧ width ≤ text.length ∧
    (∀ c ∈ text, (hexDigitValue c).isSome = true ∧ c.toNat < 97) ∧
    text.foldl (fun acc c => 16 * acc + (hexDigitValue c).getD 0) 0 = n

/-- The text of a Data segment, its bytes as 2-digit groups joined by single spaces (rule R199), `parseHexText` reads back
as those bytes (rules R112, R113). -/
def Obligations.HexTextReadsBack : Prop :=
  ∀ bytes : List Byte, parseHexText (hexBytes bytes) = some bytes

/-- `decToHighLowBytes` splits an integer in [0, 65535] high byte first and gives [0, 0] for any other integer and for
what is no number (rule R115); a fractional number is left to log entry 10. -/
def Obligations.HighLowSplitClamps : Prop :=
  (∀ n : Int, 0 ≤ n → n ≤ 65535 →
    decToHighLowBytes (.int n) = some [BitVec.ofNat 8 (n.toNat / 256), BitVec.ofNat 8 (n.toNat % 256)]) ∧
  (∀ n : Int, n < 0 ∨ 65535 < n → decToHighLowBytes (.int n) = some [0x00, 0x00]) ∧
  decToHighLowBytes .notNumber = some [0x00, 0x00]

/-- A text that does not parse issues no command, and the block's state is unchanged (rule R114). One that parses issues
exactly one, which waits after those issued before it and carries the bytes: the queue and the request's form are the
model's choice (log entries 6 and 7). -/
def Obligations.InvalidTextIssuesNoCommand : Prop :=
  ∀ (cmd : Byte) (text : List Char) (s : State),
    (parseHexText text = none → s.issueText cmd text = s) ∧
    (∀ bytes, parseHexText text = some bytes →
      s.issueText cmd text = { s with inbox := s.inbox ++ [.command (Request.mk cmd bytes (Params.mk 0 0 0 0 0 [] []))] })

/-- A user's numbers become one VALIDATE or ENCODE command whose record holds exactly those numbers, if every one of them fits
its field, and no command at all if any does not (rule R257); to split a number that is out of range without checking it
would put 0 in its place. The record of user numbers, the queue and the request's form are the model's choice (log entries 6,
7 and 10). -/
def Obligations.UserNumbersAreConvertedOrRejected : Prop :=
  ∀ (cmd : Byte) (u : UserParams) (s : State),
    let fits : Nat → HostNumber → Prop := fun most v => ∃ n : Nat, n ≤ most ∧ v = .int n
    let allFit : Prop := fits 255 u.unit ∧ fits 255 u.fc ∧ fits 65535 u.addr ∧ fits 65535 u.qty ∧ fits 65535 u.value ∧
      (∀ v ∈ u.coils, fits 1 v) ∧ ∀ v ∈ u.regs, fits 65535 v
    (allFit → ∃ p : Params,
      s.issueNumbers cmd u = { s with inbox := s.inbox ++ [.command (Request.mk cmd [] p)] } ∧
      u.unit = .int p.unit.toNat ∧ u.fc = .int p.fc.toNat ∧ u.addr = .int p.addr.toNat ∧ u.qty = .int p.qty.toNat ∧
      u.value = .int p.value.toNat ∧ u.coils = p.coils.map (fun b => .int (if b then 1 else 0)) ∧
      u.regs = p.regs.map fun v => .int v.toNat) ∧
    (¬ allFit → s.issueNumbers cmd u = s) ∧
    ∀ n : Int, n < 0 ∨ 65535 < n → clampedField (.int n) = some 0 ∧ fieldOfNumber (.int n) = none
end

