-- ==== Sys2Proof/Laws/State.lean ====
section
/-! SUPPORT. One lemma for each field and each update of the state. -/

namespace Sys2Proof.Machine

@[simp] theorem finish_tid (r : Result) (s : State) : (s.finish r).tid = s.tid := rfl
@[simp] theorem finish_seeded (r : Result) (s : State) : (s.finish r).seeded = s.seeded := rfl
@[simp] theorem finish_draws (r : Result) (s : State) : (s.finish r).draws = s.draws := rfl
@[simp] theorem finish_inbox (r : Result) (s : State) : (s.finish r).inbox = s.inbox := rfl
@[simp] theorem finish_outbox (r : Result) (s : State) : (s.finish r).outbox = s.outbox ++ [r] := rfl

@[simp] theorem advanceTid_tid (s : State) : s.advanceTid.tid = tidSucc s.tid := rfl
@[simp] theorem advanceTid_seeded (s : State) : s.advanceTid.seeded = s.seeded := rfl
@[simp] theorem advanceTid_draws (s : State) : s.advanceTid.draws = s.draws := rfl
@[simp] theorem advanceTid_inbox (s : State) : s.advanceTid.inbox = s.inbox := rfl
@[simp] theorem advanceTid_outbox (s : State) : s.advanceTid.outbox = s.outbox := rfl

@[simp] theorem take_tid (q : List HostEvent) (s : State) : (s.take q).tid = s.tid := rfl
@[simp] theorem take_seeded (q : List HostEvent) (s : State) : (s.take q).seeded = s.seeded := rfl
@[simp] theorem take_draws (q : List HostEvent) (s : State) : (s.take q).draws = s.draws := rfl
@[simp] theorem take_inbox (q : List HostEvent) (s : State) : (s.take q).inbox = q := rfl
@[simp] theorem take_outbox (q : List HostEvent) (s : State) : (s.take q).outbox = s.outbox := rfl

@[simp] theorem seedTid_tid (s : State) : s.seedTid.tid = Config.tid0 s.draws := rfl
@[simp] theorem seedTid_seeded (s : State) : s.seedTid.seeded = true := rfl
@[simp] theorem seedTid_draws (s : State) : s.seedTid.draws = s.draws + 1 := rfl
@[simp] theorem seedTid_inbox (s : State) : s.seedTid.inbox = s.inbox := rfl
@[simp] theorem seedTid_outbox (s : State) : s.seedTid.outbox = s.outbox := rfl

@[simp] theorem losePower_tid (s : State) : s.losePower.tid = Config.unseededTid s.draws := rfl
@[simp] theorem losePower_seeded (s : State) : s.losePower.seeded = false := rfl
@[simp] theorem losePower_draws (s : State) : s.losePower.draws = s.draws + 1 := rfl
@[simp] theorem losePower_inbox (s : State) : s.losePower.inbox = s.inbox := rfl
@[simp] theorem losePower_outbox (s : State) : s.losePower.outbox = s.outbox := rfl

@[simp] theorem issueFirst_inbox (r : Request) (s : State) : (s.issueFirst r).inbox = .command r :: s.inbox := rfl
@[simp] theorem issueFirst_seeded (r : Request) (s : State) : (s.issueFirst r).seeded = s.seeded := rfl
@[simp] theorem issue_inbox (r : Request) (s : State) : (s.issue r).inbox = s.inbox ++ [.command r] := rfl
@[simp] theorem issue_tid (r : Request) (s : State) : (s.issue r).tid = s.tid := rfl

theorem raise_eq_finish (e : Raise) (s : State) : s.raise e = s.finish (.raised e) := rfl

@[simp] theorem finishExcept_ok (v : Value) (s : State) : s.finishExcept (.ok v) = s.finish (.ok v) := rfl
@[simp] theorem finishExcept_error (e : Raise) (s : State) : s.finishExcept (.error e) = s.raise e := rfl

@[simp] theorem take_eq_self (s : State) : s.take s.inbox = s := rfl

/-- Two states that return one result each from one state are equal only if the results are. -/
theorem finish_inj {r r' : Result} {s : State} (h : s.finish r = s.finish r') : r = r' := by
  have := congrArg State.outbox h
  simpa using this

end Sys2Proof.Machine
end

