-- ==== Sys2Proof/Laws/Config.lean ====
section
/-! SUPPORT. What is known of the open parameters (rules R10, R42, R250), and of the port's acceptance. -/

namespace Sys2Proof.Machine

/-- Rule R10: every platform accepts a sequence of 259 bytes. -/
theorem seqCap_floor : 259 ≤ Config.seqCap := by unfold Config.seqCap; omega

/-- Rule R10: every platform accepts a list of 1969 elements. -/
theorem listCap_floor : 1969 ≤ Config.listCap := by unfold Config.listCap; omega

@[simp] theorem seqWithin_iff (n : Nat) : Config.seqWithin n = true ↔ n ≤ Config.seqCap := by
  have := seqCap_floor
  simp only [Config.seqWithin, Bool.or_eq_true, decide_eq_true_eq]
  omega

@[simp] theorem listWithin_iff (n : Nat) : Config.listWithin n = true ↔ n ≤ Config.listCap := by
  have := listCap_floor
  simp only [Config.listWithin, Bool.or_eq_true, decide_eq_true_eq]
  omega

@[simp] theorem seqFits_iff (b : List Byte) : seqFits b = true ↔ b.length ≤ Config.seqCap := by
  simp [seqFits]

@[simp] theorem listsFit_iff (c : List Bool) (r : List U16) :
    listsFit c r = true ↔ c.length ≤ Config.listCap ∧ r.length ≤ Config.listCap := by
  simp [listsFit]

theorem paramsFit_iff (p : Params) : paramsFit p = true ↔ Fits p := by
  simp [paramsFit]

@[simp] theorem perform_of_fits {b : Bool} {t : State} (h : b = true) : perform b t = .next t := by
  simp [perform, h]

@[simp] theorem perform_of_not_fits {b : Bool} {t : State} (h : b = false) :
    perform b t = .refused .operandTooLong := by
  simp [perform, h]

/-- Everything the port's acceptance can do: perform the command, or refuse it because an operand is too long. -/
theorem perform_next {b : Bool} {t u : State} : perform b t = .next u ↔ b = true ∧ t = u := by
  cases b <;> simp [perform]

/-- Rule R250: every draw of `tid0` is in [1, 0xFFFE]. -/
theorem tid0_range (k : Nat) : 1 ≤ (Config.tid0 k).toNat ∧ (Config.tid0 k).toNat ≤ 0xFFFE := by
  simp only [Config.tid0, BitVec.toNat_ofNat]
  omega

end Sys2Proof.Machine
end

