-- ==== Sys2Proof/Laws/Decode.lean ====
section
/-! SUPPORT. The two decoders: the eight codes (rule R76), the descriptors (rules R60, R61), byte order (rule R71). -/

namespace Sys2Proof.Machine

@[simp] theorem ofByte_toByte (f : FnCode) : FnCode.ofByte f.toByte = some f := by cases f <;> rfl

/-- A byte names at most one code, its own. -/
theorem ofByte_some {b : Byte} {f : FnCode} (h : FnCode.ofByte b = some f) : b = f.toByte := by
  unfold FnCode.ofByte at h
  repeat' (split at h; · cases h; assumption)
  cases h

/-- Rule R77: the unsupported codes are the bytes outside SUPPORTED. -/
theorem ofByte_none {b : Byte} : FnCode.ofByte b = none ↔ b ∉ supportedCodes := by
  unfold FnCode.ofByte supportedCodes
  constructor
  · intro h
    repeat' (split at h; · cases h)
    simp_all
  · intro h
    simp_all

@[simp] theorem hi8_be16 (h l : Byte) : hi8 (be16 h l) = h := by
  apply BitVec.eq_of_getLsbD_eq
  intro i hi
  simp [hi8, be16, hi, show 8 + i < 16 by omega]

@[simp] theorem lo8_be16 (h l : Byte) : lo8 (be16 h l) = l := by
  apply BitVec.eq_of_getLsbD_eq
  intro i hi
  simp [lo8, be16, hi, show i < 16 by omega]

/-- Rule R71: splitting and reading back a field are inverse. -/
@[simp] theorem be16_hi8_lo8 (v : U16) : be16 (hi8 v) (lo8 v) = v := by
  apply BitVec.eq_of_getLsbD_eq
  intro i hi
  by_cases h : i < 8
  · simp [hi8, lo8, be16, hi, h]
  · simp [hi8, lo8, be16, hi, h, show i - 8 < 8 by omega, show 8 + (i - 8) = i by omega]

/-- Low byte first is high byte first with the bytes exchanged (rules R43, R44). -/
theorem le16_eq_be16 (l h : Byte) : le16 l h = be16 h l := by
  unfold le16 be16
  exact BitVec.or_comm _ _

section Descriptors
variable (b : List Byte) (p : Params)

/-! The seven descriptors of rule R61. -/

@[simp] theorem decode_crc16 : decode (Request.mk 0x00#8 b p) = .ok (.crc16 b) := by
  simp [decode, Request.op, Request.mode]
@[simp] theorem decode_validateRtu : decode (Request.mk 0x01#8 b p) = .ok (.validateRtu p) := by
  simp [decode, Request.op, Request.mode]
@[simp] theorem decode_validateTcp : decode (Request.mk 0x05#8 b p) = .ok (.validateTcp p) := by
  simp [decode, Request.op, Request.mode]
@[simp] theorem decode_encodeRtu : decode (Request.mk 0x02#8 b p) = .ok (.encodeRtu p) := by
  simp [decode, Request.op, Request.mode]
@[simp] theorem decode_encodeTcp : decode (Request.mk 0x06#8 b p) = .ok (.encodeTcp p) := by
  simp [decode, Request.op, Request.mode]
@[simp] theorem decode_decodeRtu : decode (Request.mk 0x03#8 b p) = .ok (.decodeRtu b) := by
  simp [decode, Request.op, Request.mode]
@[simp] theorem decode_decodeTcp : decode (Request.mk 0x07#8 b p) = .ok (.decodeTcp b) := by
  simp [decode, Request.op, Request.mode]

end Descriptors

/-- Everything the descriptor decoder can answer (rule R61). -/
theorem decode_cases (r : Request) :
    (r.cmd = 0x00 ∧ decode r = .ok (.crc16 r.bytes)) ∨
    (r.cmd = 0x01 ∧ decode r = .ok (.validateRtu r.params)) ∨
    (r.cmd = 0x05 ∧ decode r = .ok (.validateTcp r.params)) ∨
    (r.cmd = 0x02 ∧ decode r = .ok (.encodeRtu r.params)) ∨
    (r.cmd = 0x06 ∧ decode r = .ok (.encodeTcp r.params)) ∨
    (r.cmd = 0x03 ∧ decode r = .ok (.decodeRtu r.bytes)) ∨
    (r.cmd = 0x07 ∧ decode r = .ok (.decodeTcp r.bytes)) ∨
    (r.cmd ∉ ([0x00, 0x01, 0x05, 0x02, 0x06, 0x03, 0x07] : List Byte) ∧ ∃ e, decode r = .error e) := by
  obtain ⟨cmd, bytes, params⟩ := r
  by_cases hr : cmd.extractLsb' 3 5 = 0
  · have h8 : cmd = 0x00 ∨ cmd = 0x01 ∨ cmd = 0x02 ∨ cmd = 0x03 ∨ cmd = 0x04 ∨ cmd = 0x05 ∨ cmd = 0x06 ∨ cmd = 0x07 := by
      revert hr; revert cmd; decide
    rcases h8 with h | h | h | h | h | h | h | h <;> subst h <;> simp [decode, Request.op, Request.mode]
  · have h7 : cmd ∉ ([0x00, 0x01, 0x05, 0x02, 0x06, 0x03, 0x07] : List Byte) := by
      intro hm; simp at hm; rcases hm with h | h | h | h | h | h | h <;> subst h <;> simp at hr
    exact Or.inr <| Or.inr <| Or.inr <| Or.inr <| Or.inr <| Or.inr <| Or.inr
      ⟨h7, _, by unfold decode; rw [if_neg hr]⟩

theorem getD_last_two (body : List Byte) (a b : Byte) :
    (body ++ [a, b]).getD body.length 0 = a ∧ (body ++ [a, b]).getD (body.length + 1) 0 = b := by
  constructor <;> simp [List.getD_eq_getElem?_getD]

/-- A shell's frame is taken apart into what it was made of (rules R69, R70). -/
theorem splitRtu_frame (unit lo hi fc : Byte) (body : List Byte) :
    splitRtu ((FrameShell.rtu unit lo hi).frame fc body) = some (fc, .rtu unit lo hi, body) := by
  have h := getD_last_two body lo hi
  simp only [FrameShell.frame, splitRtu, List.cons_append, List.nil_append]
  rw [if_pos (by simp), show (body ++ [lo, hi]).length - 1 = body.length + 1 by simp,
    show (body ++ [lo, hi]).length - 2 = body.length by simp, h.1, h.2]
  simp

theorem splitTcp_frame (tid proto len : U16) (unit fc : Byte) (body : List Byte) :
    splitTcp ((FrameShell.tcp tid proto len unit).frame fc body) = some (fc, .tcp tid proto len unit, body) := by
  simp [FrameShell.frame, splitTcp, be16Bytes]

/-- The function code decoder on the request that carries a frame (rules R65, R185). -/
theorem decodeFc_frame (sh : FrameShell) (fc : Byte) (body : List Byte) (p : Params) :
    decodeFc (Request.mk (decodeCmd sh.mode) (sh.frame fc body) p) = some (rowOfFrame fc sh body) := by
  cases sh with
  | rtu unit lo hi =>
    have hd : decode (Request.mk (decodeCmd .rtu) ((FrameShell.rtu unit lo hi).frame fc body) p) =
        .ok (.decodeRtu ((FrameShell.rtu unit lo hi).frame fc body)) := decode_decodeRtu _ _
    simp only [FrameShell.mode, decodeFc, hd, splitRtu_frame, Option.map_some]
  | tcp tid proto len unit =>
    have hd : decode (Request.mk (decodeCmd .tcp) ((FrameShell.tcp tid proto len unit).frame fc body) p) =
        .ok (.decodeTcp ((FrameShell.tcp tid proto len unit).frame fc body)) := decode_decodeTcp _ _
    simp only [FrameShell.mode, decodeFc, hd, splitTcp_frame, Option.map_some]

end Sys2Proof.Machine
end

