-- ==== Sys2Proof/Laws/Exec.lean ====
section
/-! SUPPORT. What a command can do to the state, said once for every instruction: it returns one result, and TID
changes only where an ENCODE in mode TCP ends OK (rules R21, R23, R220). -/

namespace Sys2Proof.Machine

/-- The two ways a command ends: a result and nothing else, or a TCP frame and the advance of TID. -/
def Ends (tcp : Bool) (s t : State) : Prop :=
  (∃ r, t = s.finish r ∧ (tcp = true → ∃ e, r = .raised e)) ∨
  (tcp = true ∧ ∃ adu, t = s.advanceTid.finish (.ok (.adu adu)))

theorem Ends.of_finish (r : Result) (s : State) : Ends false s (s.finish r) :=
  Or.inl ⟨r, rfl, by simp⟩

theorem Ends.of_raise (tcp : Bool) (e : Raise) (s : State) : Ends tcp s (s.raise e) :=
  Or.inl ⟨_, rfl, fun _ => ⟨e, rfl⟩⟩

theorem validateMask_ends (mask : Byte) (s : State) : Ends false s (validateMask mask s) := by
  unfold validateMask
  split
  · exact .of_finish _ _
  · exact .of_raise _ _ _

theorem validateParams_ends (p : Params) (s : State) : Ends false s (validateParams p s) := by
  unfold validateParams
  split
  · exact .of_raise _ _ _
  · exact validateMask_ends _ _

theorem encodeMask_ends (m : Mode) (unit mask : Byte) (pdu : List Byte) (s : State) :
    Ends (decide (m = .tcp)) s (encodeMask m unit mask pdu s) := by
  cases m
  · unfold encodeMask encodeMaskRtu
    dsimp only
    split
    · exact .of_finish _ _
    · exact .of_raise _ _ _
  · unfold encodeMask encodeMaskTcp
    dsimp only
    split
    · exact Or.inr ⟨rfl, _, rfl⟩
    · exact .of_raise _ _ _

theorem encodeParams_ends (m : Mode) (p : Params) (s : State) :
    Ends (decide (m = .tcp)) s (encodeParams m p s) := by
  unfold encodeParams
  split
  · exact .of_raise _ _ _
  · exact encodeMask_ends _ _ _ _ _

theorem finishExcept_ends (x : Except Raise Value) (s : State) : Ends false s (s.finishExcept x) := by
  cases x
  · exact .of_raise _ _ _
  · exact .of_finish _ _

/-- What a function code row can do, whichever code it is. -/
theorem rowUse_next {α : Type} {fc : Byte} {fits : α → Bool} {check : Byte → α → Byte} {pdu : α → List Byte}
    {shape : Cursor → Except Raise Cursor} {u : PduUse α} {s t : State}
    (h : rowUse fc fits check pdu shape u s = .next t) : Ends (tcpEncodeUse u) s t := by
  unfold rowUse at h
  split at h
  · obtain ⟨-, rfl⟩ := perform_next.mp h
    exact validateMask_ends _ _
  · obtain ⟨-, rfl⟩ := perform_next.mp h
    rename_i m _ _
    cases m
    · exact encodeMask_ends .rtu _ _ _ _
    · exact encodeMask_ends .tcp _ _ _ _
  · obtain ⟨-, rfl⟩ := perform_next.mp h
    exact finishExcept_ends _ _

theorem execFcUnknown_next {fc : Byte} {u : PduUse RecordFields} {s t : State}
    (h : execFcUnknown fc u s = .next t) : Ends (tcpEncodeUse u) s t := by
  unfold execFcUnknown at h
  split at h
  · obtain ⟨-, rfl⟩ := perform_next.mp h
    exact validateParams_ends _ _
  · obtain ⟨-, rfl⟩ := perform_next.mp h
    rename_i m _ _
    cases m
    · exact encodeParams_ends .rtu _ _
    · exact encodeParams_ends .tcp _ _
  · obtain ⟨-, rfl⟩ := perform_next.mp h
    exact finishExcept_ends _ _

/-- The inversion lemma of `exec`: every instruction that completes ends in one of the two ways of `Ends`. -/
theorem exec_next {i : Instr} {s t : State} (h : exec i s = .next t) : Ends (isTcpEncode i) s t := by
  cases i with
  | crc16 data =>
    obtain ⟨-, rfl⟩ := perform_next.mp h
    exact .of_finish _ _
  | validateRtu p =>
    obtain ⟨-, rfl⟩ := perform_next.mp h
    exact validateParams_ends p s
  | validateTcp p =>
    obtain ⟨-, rfl⟩ := perform_next.mp h
    exact validateParams_ends p s
  | encodeRtu p =>
    obtain ⟨-, rfl⟩ := perform_next.mp h
    exact encodeParams_ends .rtu p s
  | encodeTcp p =>
    obtain ⟨-, rfl⟩ := perform_next.mp h
    exact encodeParams_ends .tcp p s
  | decodeRtu f =>
    obtain ⟨-, rfl⟩ := perform_next.mp h
    exact finishExcept_ends _ s
  | decodeTcp f =>
    obtain ⟨-, rfl⟩ := perform_next.mp h
    exact finishExcept_ends _ s
  | fc01ReadCoils u => exact rowUse_next h
  | fc02ReadDiscreteInputs u => exact rowUse_next h
  | fc03ReadHoldingRegisters u => exact rowUse_next h
  | fc04ReadInputRegisters u => exact rowUse_next h
  | fc05WriteSingleCoil u => exact rowUse_next h
  | fc06WriteSingleRegister u => exact rowUse_next h
  | fc0FWriteMultipleCoils u => exact rowUse_next h
  | fc10WriteMultipleRegisters u => exact rowUse_next h
  | fcUnknown fc u => exact execFcUnknown_next h

theorem fetch_idle {s : State} (h : s.inbox = []) : fetch s = .idle := by
  simp [fetch, h]

theorem fetch_reset {s : State} {rest : List HostEvent} (h : s.inbox = .reset :: rest) :
    fetch s = .done (s.take rest).seedTid := by
  simp [fetch, h]

theorem fetch_powerLoss {s : State} {rest : List HostEvent} (h : s.inbox = .powerLoss :: rest) :
    fetch s = .done (s.take rest).losePower := by
  simp [fetch, h]

theorem fetch_unseeded {s : State} {r : Request} {rest : List HostEvent} (h : s.inbox = .command r :: rest)
    (hs : s.seeded = false) : fetch s = .stuck .commandBeforeReset := by
  simp [fetch, h, hs]

theorem fetch_run {s : State} {r : Request} {rest : List HostEvent} {i : Instr} (h : s.inbox = .command r :: rest)
    (hs : s.seeded = true) (hd : decode r = .ok i) : fetch s = .run i (s.take rest) := by
  simp [fetch, h, hs, hd]

theorem fetch_refuse {s : State} {r : Request} {rest : List HostEvent} {e : DecodeError}
    (h : s.inbox = .command r :: rest) (hs : s.seeded = true) (hd : decode r = .error e) :
    fetch s = .refuse (.descriptor e) := by
  simp [fetch, h, hs, hd]

/-- Everything one step can do (rules R48, R226, R235, R250, R252). -/
theorem step_next {s t : State} (h : step s = .next t) :
    (s.inbox = [] ∧ t = s) ∨
    (∃ rest, s.inbox = .reset :: rest ∧ t = (s.take rest).seedTid) ∨
    (∃ rest, s.inbox = .powerLoss :: rest ∧ t = (s.take rest).losePower) ∨
    ∃ r rest i, s.inbox = .command r :: rest ∧ s.seeded = true ∧ decode r = .ok i ∧ exec i (s.take rest) = .next t := by
  unfold step fetch at h
  rcases hq : s.inbox with _ | ⟨e, rest⟩ <;> rw [hq] at h
  · exact Or.inl ⟨rfl, by simpa using h.symm⟩
  · cases e with
    | reset => exact Or.inr (Or.inl ⟨rest, rfl, by simpa using h.symm⟩)
    | powerLoss => exact Or.inr (Or.inr (Or.inl ⟨rest, rfl, by simpa using h.symm⟩))
    | command r =>
      dsimp only at h
      by_cases hs : s.seeded = true
      · rw [if_pos hs] at h
        cases hd : decode r with
        | error e => rw [hd] at h; simp at h
        | ok i => rw [hd] at h; dsimp only at h; exact Or.inr (Or.inr (Or.inr ⟨r, rest, i, rfl, hs, hd, h⟩))
      · rw [if_neg hs] at h; simp at h

end Sys2Proof.Machine
end

