-- ==== Sys2Proof/Laws/Fields.lean ====
section
/-! SUPPORT. The checks of a record, one lemma for each function code (rules R131 to R138), and the two commands that run
them, by function code. -/

namespace Sys2Proof.Machine

@[simp] theorem checkUnit_eq (u : Byte) : checkUnit u = 0 := by
  have := u.isLt
  simp only [checkUnit, violation]
  rw [if_pos]
  simp; omega

@[simp] theorem checkAddr_eq (a : U16) : checkAddr a = 0 := by
  have := a.isLt
  simp only [checkAddr, violation]
  rw [if_pos]
  simp; omega

@[simp] theorem checkRegValue_eq (v : U16) : checkRegValue v = 0 := by
  have := v.isLt
  simp only [checkRegValue, violation]
  rw [if_pos]
  simp; omega

theorem checkQty_eq (most : Nat) (q : U16) :
    checkQty most q = if 1 ≤ q.toNat ∧ q.toNat ≤ most then 0 else 0x04 := by
  simp [checkQty, violation, maskQty]

theorem checkList_eq (n : Nat) (q : U16) : checkList n q = if n = q.toNat then 0 else 0x10 := by
  simp [checkList, violation, maskList]

theorem checkCoilValue_eq (v : U16) :
    checkCoilValue v = if v = 0xFF00 ∨ v = 0x0000 then 0 else 0x08 := by
  simp [checkCoilValue, violation, maskValue]

@[simp] theorem checkFc01_eq (u : Byte) (a q : U16) : checkFc01 u a q = checkQty 2000 q := by simp [checkFc01]
@[simp] theorem checkFc02_eq (u : Byte) (a q : U16) : checkFc02 u a q = checkQty 2000 q := by simp [checkFc02]
@[simp] theorem checkFc03_eq (u : Byte) (a q : U16) : checkFc03 u a q = checkQty 125 q := by simp [checkFc03]
@[simp] theorem checkFc04_eq (u : Byte) (a q : U16) : checkFc04 u a q = checkQty 125 q := by simp [checkFc04]
@[simp] theorem checkFc05_eq (u : Byte) (a v : U16) : checkFc05 u a v = checkCoilValue v := by simp [checkFc05]
@[simp] theorem checkFc06_eq (u : Byte) (a v : U16) : checkFc06 u a v = 0 := by simp [checkFc06]
@[simp] theorem checkFc0F_eq (u : Byte) (a q : U16) (c : List Bool) :
    checkFc0F u a q c = checkQty 1968 q ||| checkList c.length q := by simp [checkFc0F]
@[simp] theorem checkFc10_eq (u : Byte) (a q : U16) (r : List U16) :
    checkFc10 u a q r = checkQty 123 q ||| checkList r.length q := by simp [checkFc10]

theorem validateParams_of_code {p : Params} {f : FnCode} (h : p.fc = f.toByte) (s : State) :
    validateParams p s = validateMask (checkParams f p) s := by
  simp [validateParams, h]

theorem encodeParams_of_code {p : Params} {f : FnCode} (h : p.fc = f.toByte) (m : Mode) (s : State) :
    encodeParams m p s = encodeMask m p.unit (checkParams f p) (pduOf f p) s := by
  simp [encodeParams, h]

theorem validateParams_of_unsupported {p : Params} (h : p.fc ∉ supportedCodes) (s : State) :
    validateParams p s = s.raise .unsupportedFc := by
  simp [validateParams, ofByte_none.mpr h]

theorem encodeParams_of_unsupported {p : Params} (h : p.fc ∉ supportedCodes) (m : Mode) (s : State) :
    encodeParams m p s = s.raise .unsupportedFc := by
  simp [encodeParams, ofByte_none.mpr h]

theorem validateMask_zero (s : State) : validateMask 0 s = s.finish (.ok .valid) := by simp [validateMask]

theorem validateMask_ne {mask : Byte} (h : mask ≠ 0) (s : State) :
    validateMask mask s = s.raise (.paramInvalid mask) := by rw [validateMask, if_neg h]

theorem encodeMask_zero_rtu (u : Byte) (pdu : List Byte) (s : State) :
    encodeMask .rtu u 0 pdu s = s.finish (.ok (.adu (wrapRtu u pdu))) := by simp [encodeMask, encodeMaskRtu]

theorem encodeMask_zero_tcp (u : Byte) (pdu : List Byte) (s : State) :
    encodeMask .tcp u 0 pdu s = s.advanceTid.finish (.ok (.adu (wrapTcp s.tid u pdu))) := by
  simp [encodeMask, encodeMaskTcp]

theorem encodeMask_ne {mask : Byte} (h : mask ≠ 0) (m : Mode) (u : Byte) (pdu : List Byte) (s : State) :
    encodeMask m u mask pdu s = s.raise (.paramInvalid mask) := by
  cases m
  · rw [encodeMask, encodeMaskRtu, if_neg h]
  · rw [encodeMask, encodeMaskTcp, if_neg h]

/-- The records that pass validation are those of a supported code whose checks set no bit (rules R130, R137). -/
theorem valid_iff (p : Params) : Valid p ↔ ∃ f, FnCode.ofByte p.fc = some f ∧ checkParams f p = 0 := by
  have hq : ∀ most (q : U16), checkQty most q = 0#8 ↔ 1 ≤ q.toNat ∧ q.toNat ≤ most := by
    intro most q; rw [checkQty_eq]; split <;> simp_all
  have hl : ∀ n (q : U16), checkList n q = 0#8 ↔ n = q.toNat := by
    intro n q; rw [checkList_eq]; split <;> simp_all
  have hv : ∀ v : U16, checkCoilValue v = 0#8 ↔ v = 0xFF00#16 ∨ v = 0x0000#16 := by
    intro v; rw [checkCoilValue_eq]; split <;> simp_all
  have hor : ∀ a b : Byte, a ||| b = 0#8 ↔ a = 0#8 ∧ b = 0#8 := fun a b => BitVec.or_eq_zero_iff
  cases hf : FnCode.ofByte p.fc with
  | none =>
    have := ofByte_none.mp hf
    simp only [supportedCodes, List.mem_cons, List.not_mem_nil, or_false, not_or,
      BitVec.ofNat_eq_ofNat] at this
    simp [Valid, this]
  | some f =>
    have hb := ofByte_some hf
    cases f <;> simp [Valid, hb, FnCode.toByte, checkParams, hq, hl, hv, hor, and_assoc]

/-- What ENCODE does with a valid record, in both modes (rules R150, R160, R161). -/
theorem encodeParams_of_valid {p : Params} (h : Valid p) :
    ∃ f, p.fc = f.toByte ∧ checkParams f p = 0 ∧
      (∀ s, encodeParams .rtu p s = s.finish (.ok (.adu (wrapRtu p.unit (pduOf f p))))) ∧
      (∀ s, encodeParams .tcp p s = s.advanceTid.finish (.ok (.adu (wrapTcp s.tid p.unit (pduOf f p))))) := by
  obtain ⟨f, hf, hc⟩ := (valid_iff p).mp h
  refine ⟨f, ofByte_some hf, hc, fun s => ?_, fun s => ?_⟩
  · rw [encodeParams_of_code (ofByte_some hf), hc, encodeMask_zero_rtu]
  · rw [encodeParams_of_code (ofByte_some hf), hc, encodeMask_zero_tcp]

end Sys2Proof.Machine
end

