-- ==== Sys2Proof/Laws/Build.lean ====
section
/-! SUPPORT. What ENCODE builds: coil packing (rule R73), register bytes (rule R158), and the lengths of PDUs and frames
(rules R72, R75, R78). -/

namespace Sys2Proof.Machine

/-- Bit `i` of a packed byte is element `i` of its coils. -/
theorem packByte_getLsbD (cs : List Bool) {i : Nat} (hi : i < 8) : (packByte cs).getLsbD i = cs.getD i false := by
  induction cs generalizing i with
  | nil => simp [packByte]
  | cons b rest ih =>
    rcases i with _ | i
    · simp [packByte]; cases b <;> simp
    · have := ih (i := i) (by omega)
      simp only [packByte, BitVec.getLsbD_or, BitVec.getLsbD_shiftLeft, List.getD_cons_succ, ← this]
      cases b
      · simp; intro _; omega
      · simp [hi]

@[simp] theorem pack_length (bc : Nat) (cs : List Bool) : (pack bc cs).length = bc := by
  induction bc generalizing cs with
  | zero => rfl
  | succ n ih => simp [pack, ih]

/-- Coil `i` is bit `i mod 8` of packed byte `i div 8`, and 0 beyond the last coil. -/
theorem pack_getLsbD (bc : Nat) (cs : List Bool) {i : Nat} (hi : i < 8 * bc) :
    ((pack bc cs).getD (i / 8) 0).getLsbD (i % 8) = cs.getD i false := by
  induction bc generalizing cs i with
  | zero => omega
  | succ n ih =>
    by_cases h : i < 8
    · rw [show i / 8 = 0 by omega, show i % 8 = i by omega, pack, List.getD_cons_zero, packByte_getLsbD _ h]
      simp [List.getD_eq_getElem?_getD, h]
    · rw [show i / 8 = (i - 8) / 8 + 1 by omega, pack, List.getD_cons_succ, show i % 8 = (i - 8) % 8 by omega,
        ih _ (by omega)]
      simp [List.getD_eq_getElem?_getD, show 8 + (i - 8) = i by omega]

@[simp] theorem regBytes_length (regs : List U16) : (regBytes regs).length = 2 * regs.length := by
  induction regs with
  | nil => rfl
  | cons r regs ih => rw [regBytes, List.flatMap_cons, List.length_append, ← regBytes, ih]; simp [be16Bytes]; omega

/-- Register `j` stands at bytes `2j` and `2j + 1`, high byte first. -/
theorem regBytes_getD (regs : List U16) {j : Nat} (hj : j < regs.length) :
    (regBytes regs).getD (2 * j) 0 = hi8 (regs.getD j 0) ∧ (regBytes regs).getD (2 * j + 1) 0 = lo8 (regs.getD j 0) := by
  induction regs generalizing j with
  | nil => simp at hj
  | cons r regs ih =>
    have hc : regBytes (r :: regs) = hi8 r :: lo8 r :: regBytes regs := rfl
    rw [hc]
    rcases j with _ | j
    · exact ⟨rfl, rfl⟩
    · exact ih (by simpa using hj)

/-- The length of a PDU by function code (rule R78). -/
theorem pduOf_length (f : FnCode) (p : Params) (h : checkParams f p = 0) : (pduOf f p).length =
    match f with
    | .writeMultipleCoils => 6 + (p.qty.toNat + 7) / 8
    | .writeMultipleRegisters => 6 + 2 * p.qty.toNat
    | _ => 5 := by
  cases f <;> try rfl
  · simp [pduOf, pduFc0F, coilByteCount]; omega
  · have hl : p.regs.length = p.qty.toNat := by
      by_contra hne
      have hc : checkList p.regs.length p.qty = 0x10 := by rw [checkList_eq, if_neg hne]
      rw [checkParams, checkFc10_eq, hc] at h
      have hb := congrArg (fun x => BitVec.getLsbD x 4) h
      simp at hb
    simp [pduOf, pduFc10, hl]; omega

@[simp] theorem wrapRtu_length (unit : Byte) (pdu : List Byte) : (wrapRtu unit pdu).length = pdu.length + 3 := by
  simp [wrapRtu]

@[simp] theorem wrapTcp_length (t : U16) (unit : Byte) (pdu : List Byte) :
    (wrapTcp t unit pdu).length = pdu.length + 7 := by
  simp [wrapTcp]

end Sys2Proof.Machine
end

