-- ==== Sys2Proof/Laws/Crc.lean ====
section
/-! SUPPORT. The CRC register (rules R100, R101): a shift is linear, loses no information, and only shifts while the bits
that leave are 0. -/

namespace Sys2Proof.Machine

@[simp] theorem crc16_nil : crc16 [] = 0xFFFF := rfl

theorem crc16_append (a b : List Byte) : crc16 (a ++ b) = b.foldl crcUpdate (crc16 a) := by simp [crc16]

theorem crcShift_xor (a b : U16) : crcShift (a ^^^ b) = crcShift a ^^^ crcShift b := by
  unfold crcShift
  simp only [BitVec.getLsbD_xor]
  rw [BitVec.ushiftRight_xor_distrib]
  cases a.getLsbD 0 <;> cases b.getLsbD 0 <;> simp
  · rw [BitVec.xor_assoc]
  · rw [BitVec.xor_assoc, BitVec.xor_assoc, BitVec.xor_comm (b >>> 1)]
  · rw [BitVec.xor_assoc, BitVec.xor_comm 40961#16, BitVec.xor_assoc, BitVec.xor_self]; simp

theorem crcShifts_xor (n : Nat) (a b : U16) : crcShifts n (a ^^^ b) = crcShifts n a ^^^ crcShifts n b := by
  induction n generalizing a b with
  | zero => rfl
  | succ n ih => simp only [crcShifts, crcShift_xor, ih]

/-- While the bits that leave are 0, the register only shifts. -/
theorem crcShifts_of_low_zero (n : Nat) (r : U16) (h : ∀ i, i < n → r.getLsbD i = false) : crcShifts n r = r >>> n := by
  induction n generalizing r with
  | zero => simp [crcShifts]
  | succ n ih =>
    have h0 : crcShift r = r >>> 1 := by rw [crcShift, h 0 (by omega)]; rfl
    rw [crcShifts, h0, ih _ fun i hi => by simpa using h (1 + i) (by omega), ← BitVec.shiftRight_add, Nat.add_comm]

/-- Only the zero register shifts to zero. -/
theorem crcShift_eq_zero {r : U16} (h : crcShift r = 0#16) : r = 0#16 := by
  unfold crcShift at h
  split at h
  · have := congrArg (fun x => BitVec.getLsbD x 15) h
    simp at this
  · rename_i hb
    apply BitVec.eq_of_getLsbD_eq
    intro i hi
    rcases i with _ | i
    · simpa using hb
    · have := congrArg (fun x => BitVec.getLsbD x i) h
      simpa [Nat.add_comm] using this

theorem crcShifts_eq_zero {n : Nat} {r : U16} (h : crcShifts n r = 0#16) : r = 0#16 := by
  induction n generalizing r with
  | zero => exact h
  | succ n ih => exact crcShift_eq_zero (ih h)

/-- A byte's update is injective in the register. -/
theorem crcUpdate_injective {r r' : U16} {b : Byte} (h : crcUpdate r b = crcUpdate r' b) : r = r' := by
  have hx : crcShifts 8 ((r ^^^ b.setWidth 16) ^^^ (r' ^^^ b.setWidth 16)) = 0#16 := by
    rw [crcShifts_xor]; unfold crcUpdate at h; rw [h]; simp
  have h0 := crcShifts_eq_zero hx
  rw [BitVec.xor_assoc, BitVec.xor_comm r', ← BitVec.xor_assoc (b.setWidth 16), BitVec.xor_self] at h0
  simpa using h0

theorem foldl_crcUpdate_injective (c : List Byte) {r r' : U16} (h : c.foldl crcUpdate r = c.foldl crcUpdate r') :
    r = r' := by
  induction c generalizing r r' with
  | nil => exact h
  | cons b c ih => exact crcUpdate_injective (ih h)

end Sys2Proof.Machine
end

