-- ==== Sys2Proof/Laws/Frame.lean ====
section
/-! SUPPORT. The decoder's cursor: what every operation on it keeps (rules R181, R182, R201), and what each shape answers. -/

namespace Sys2Proof.Machine

theorem Tiles.append {a b c : Nat} {xs ys : List Segment} (hx : Tiles a b xs) (hy : Tiles b c ys) :
    Tiles a c (xs ++ ys) := by
  induction xs generalizing a with
  | nil => cases hx; exact hy
  | cons g rest ih => exact ⟨hx.1, hx.2.1, ih hx.2.2⟩

/-- A segment is the one its kind and place make in the frame, with its kind's width (rules R181, R198). -/
def SegmentOf (f : List Byte) (g : Segment) : Prop :=
  g = segmentAt f g.kind g.off g.len ∧ ∀ w, g.kind.width = some w → g.len = w

/-- The decoder's invariant: the segments so far tile the frame up to the cursor, and each comes from the frame. -/
structure CursorOf (f : List Byte) (bound : Nat) (c : Cursor) : Prop where
  frame : c.frame = f
  stop : c.stop = bound
  inside : c.pos ≤ bound
  tiles : Tiles 0 c.pos c.segs
  segs : ∀ g ∈ c.segs, SegmentOf f g

theorem segmentOf_segment {f : List Byte} {k : Kind} {off len : Nat} (h : ∀ w, k.width = some w → len = w) :
    SegmentOf f (segmentAt f k off len) := ⟨rfl, h⟩

/-- Emitting a segment at the cursor and stepping over it keeps the invariant, within the bound. -/
theorem CursorOf.emit_skip {f : List Byte} {stop : Nat} {c : Cursor} (h : CursorOf f stop c) {k : Kind} {w : Nat}
    (hw : ∀ v, k.width = some v → w = v) (hpos : 1 ≤ w) (hb : c.pos + w ≤ stop) :
    CursorOf f stop ((c.emit k c.pos w).skip w) where
  frame := h.frame
  stop := h.stop
  inside := hb
  tiles := h.tiles.append ⟨rfl, hpos, rfl⟩
  segs := by
    intro g hg
    rcases List.mem_append.mp hg with hg | hg
    · exact h.segs g hg
    · rw [List.mem_singleton.mp hg, h.frame]
      exact segmentOf_segment hw

/-- Everything a field read can answer (rule R182). -/
theorem field_ok {c c' : Cursor} {k : Kind} {w : Nat} {v : U16} (h : c.field k w = .ok (v, c')) :
    c.pos + w ≤ c.stop ∧ v = fieldValue c.frame c.pos w ∧ c' = (c.emit k c.pos w).skip w := by
  unfold Cursor.field at h
  split at h
  · cases h
  · injection h with h
    injection h with hv hc
    exact ⟨by omega, hv.symm, hc.symm⟩

theorem field_of_fits {c : Cursor} {k : Kind} {w : Nat} (h : c.pos + w ≤ c.stop) :
    c.field k w = .ok (fieldValue c.frame c.pos w, (c.emit k c.pos w).skip w) := by
  simp [Cursor.field, Nat.not_lt.mpr h]

theorem field_of_past {c : Cursor} {k : Kind} {w : Nat} (h : c.stop < c.pos + w) : c.field k w = .error .truncated := by
  simp [Cursor.field, h]

theorem CursorOf.field {f : List Byte} {stop : Nat} {c c' : Cursor} {k : Kind} {w : Nat} {v : U16}
    (h : CursorOf f stop c) (hw : k.width = some w) (hpos : 1 ≤ w) (hf : c.field k w = .ok (v, c')) :
    CursorOf f stop c' := by
  obtain ⟨hb, -, rfl⟩ := field_ok hf
  exact h.emit_skip (by intro u hu; rw [hw] at hu; injection hu) hpos (h.stop ▸ hb)

/-- A run of segments of one width tiles what it covers. -/
theorem tiles_run (f : List Byte) (k : Kind) (w : Nat) (hw : 1 ≤ w) (start n : Nat) :
    Tiles start (start + w * n) ((List.range n).map fun j => segmentAt f k (start + w * j) w) := by
  induction n with
  | zero => exact rfl
  | succ n ih =>
    rw [List.range_succ, List.map_append]
    exact ih.append ⟨rfl, hw, by simp [segmentAt, Tiles, Nat.mul_succ, Nat.add_assoc]⟩

/-- The answer of the two-field shape (rules R186 to R191): both fields fit, or the frame is truncated. -/
theorem shapeTwo_eq (second : Kind) (c : Cursor) :
    shapeTwo second c =
      if c.pos + 4 ≤ c.stop then
        .ok ((((c.emit .addr c.pos 2).skip 2).emit second (c.pos + 2) 2).skip 2)
      else .error .truncated := by
  unfold shapeTwo
  by_cases h1 : c.pos + 2 ≤ c.stop
  · rw [field_of_fits h1]
    dsimp only
    by_cases h2 : c.pos + 4 ≤ c.stop
    · rw [if_pos h2, field_of_fits (by simpa [Cursor.skip, Cursor.emit] using h2)]
      rfl
    · rw [if_neg h2, field_of_past (by simp [Cursor.skip, Cursor.emit]; omega)]
  · rw [field_of_past (by omega), if_neg (by omega)]

/-- The cursor after the three fields of a counted shape. -/
def countedHead (c : Cursor) : Cursor :=
  (((((((c.emit .addr c.pos 2).skip 2).emit .qty (c.pos + 2) 2).skip 2).emit .byteCount (c.pos + 4) 1).skip 1))

@[simp] theorem countedHead_pos (c : Cursor) : (countedHead c).pos = c.pos + 5 := rfl
@[simp] theorem countedHead_stop (c : Cursor) : (countedHead c).stop = c.stop := rfl
@[simp] theorem countedHead_frame (c : Cursor) : (countedHead c).frame = c.frame := rfl

/-- The answer of the counted shape (rules R192 to R194): three fields and as many bytes as the count says, or the frame
is truncated. -/
theorem shapeCounted_eq (run : Nat → Cursor → Cursor) (c : Cursor) :
    shapeCounted run c =
      if c.pos + 5 + (rd8 c.frame (c.pos + 4)).toNat ≤ c.stop then
        .ok ((run (rd8 c.frame (c.pos + 4)).toNat (countedHead c)).skip (rd8 c.frame (c.pos + 4)).toNat)
      else .error .truncated := by
  unfold shapeCounted
  rw [shapeTwo_eq]
  by_cases h1 : c.pos + 4 ≤ c.stop
  · rw [if_pos h1]
    dsimp only
    by_cases h2 : c.pos + 5 ≤ c.stop
    · rw [field_of_fits (by simp [Cursor.skip, Cursor.emit]; omega)]
      have hv : (fieldValue c.frame (c.pos + 4) 1).toNat = (rd8 c.frame (c.pos + 4)).toNat := by
        simp [fieldValue]
        have := (rd8 c.frame (c.pos + 4)).isLt
        omega
      dsimp only
      change (match (countedHead c).need (fieldValue c.frame (c.pos + 4) 1).toNat with
        | .error e => Except.error e
        | .ok c4 => .ok ((run (fieldValue c.frame (c.pos + 4) 1).toNat c4).skip
            (fieldValue c.frame (c.pos + 4) 1).toNat)) = _
      rw [hv]
      unfold Cursor.need
      by_cases h3 : c.pos + 5 + (rd8 c.frame (c.pos + 4)).toNat ≤ c.stop
      · rw [if_pos h3, if_neg (by simpa using h3)]
      · rw [if_neg h3, if_pos (by simpa using h3)]
    · rw [field_of_past (by simp [Cursor.skip, Cursor.emit]; omega), if_neg (by omega)]
  · rw [if_neg h1, if_neg (by omega)]

theorem CursorOf.coilRun {f : List Byte} {stop : Nat} {c : Cursor} (h : CursorOf f stop c) {n : Nat}
    (hb : c.pos + n ≤ stop) : CursorOf f stop ((coilRun n c).skip n) where
  frame := h.frame
  stop := h.stop
  inside := hb
  tiles := h.tiles.append (by
    have := tiles_run c.frame .coilData 1 (Nat.le_refl 1) c.pos n
    rwa [Nat.one_mul] at this)
  segs := by
    intro g hg
    rcases List.mem_append.mp hg with hg | hg
    · exact h.segs g hg
    · obtain ⟨j, -, rfl⟩ := List.mem_map.mp hg
      rw [h.frame]
      exact segmentOf_segment (by intro v hv; simpa [Kind.width] using hv)

theorem CursorOf.regRun {f : List Byte} {stop : Nat} {c : Cursor} (h : CursorOf f stop c) {n : Nat}
    (hb : c.pos + n ≤ stop) : CursorOf f stop ((regRun n c).skip n) := by
  have hsegs : ∀ g ∈ (c.emitRun .regValue 2 (n / 2)).segs, SegmentOf f g := by
    intro g hg
    rcases List.mem_append.mp hg with hg | hg
    · exact h.segs g hg
    · obtain ⟨j, -, rfl⟩ := List.mem_map.mp hg
      rw [h.frame]
      exact segmentOf_segment (by intro v hv; simpa [Kind.width] using hv)
  have htiles : Tiles 0 (c.pos + 2 * (n / 2)) (c.emitRun .regValue 2 (n / 2)).segs :=
    h.tiles.append (tiles_run c.frame .regValue 2 (by omega) c.pos (n / 2))
  unfold Sys2Proof.Machine.regRun
  by_cases hodd : n % 2 = 1
  · rw [if_pos hodd]
    exact {
      frame := h.frame
      stop := h.stop
      inside := hb
      tiles := htiles.append ⟨by simp [segmentAt]; omega, by simp [segmentAt], by
        simp [segmentAt, Cursor.skip, Cursor.emit, Cursor.emitRun, Tiles]; omega⟩
      segs := by
        intro g hg
        rcases List.mem_append.mp hg with hg | hg
        · exact hsegs g hg
        · rw [List.mem_singleton.mp hg]
          change SegmentOf f (segmentAt c.frame .data _ 1)
          rw [h.frame]
          exact segmentOf_segment (by intro v hv; cases hv) }
  · rw [if_neg hodd]
    exact {
      frame := h.frame
      stop := h.stop
      inside := hb
      tiles := by
        have : c.pos + 2 * (n / 2) = c.pos + n := by omega
        change Tiles 0 (c.pos + n) _
        exact this ▸ htiles
      segs := hsegs }

theorem CursorOf.shapeTwo {f : List Byte} {stop : Nat} {c c' : Cursor} {second : Kind} (h : CursorOf f stop c)
    (hw : second.width = some 2) (hs : shapeTwo second c = .ok c') : CursorOf f stop c' := by
  rw [shapeTwo_eq] at hs
  split at hs
  · rename_i hb
    cases hs
    have hb' : c.pos + 4 ≤ stop := h.stop ▸ hb
    have h1 := h.emit_skip (k := .addr) (w := 2) (by intro v hv; simpa [Kind.width] using hv) (by omega) (by omega)
    exact h1.emit_skip (k := second) (w := 2) (by intro v hv; rw [hw] at hv; injection hv) (by omega)
      (by simpa [Cursor.skip, Cursor.emit] using hb')
  · cases hs

theorem CursorOf.countedHead {f : List Byte} {stop : Nat} {c : Cursor} (h : CursorOf f stop c)
    (hb : c.pos + 5 ≤ stop) : CursorOf f stop (countedHead c) := by
  have h1 := h.emit_skip (k := .addr) (w := 2) (by intro v hv; simpa [Kind.width] using hv) (by omega) (by omega)
  have h2 := h1.emit_skip (k := .qty) (w := 2) (by intro v hv; simpa [Kind.width] using hv) (by omega)
    (by simp [Cursor.skip, Cursor.emit]; omega)
  exact h2.emit_skip (k := .byteCount) (w := 1) (by intro v hv; simpa [Kind.width] using hv) (by omega)
    (by simp [Cursor.skip, Cursor.emit]; omega)

/-- Every function code's shape keeps the decoder's invariant. -/
theorem CursorOf.shapeOf {f : List Byte} {stop : Nat} {c c' : Cursor} (h : CursorOf f stop c) {fc : Byte}
    (hs : shapeOf fc c = .ok c') : CursorOf f stop c' := by
  have counted : ∀ run : Nat → Cursor → Cursor,
      (∀ (d : Cursor) (n : Nat), CursorOf f stop d → d.pos + n ≤ stop → CursorOf f stop ((run n d).skip n)) →
      shapeCounted run c = .ok c' → CursorOf f stop c' := by
    intro run hrun hc
    rw [shapeCounted_eq] at hc
    split at hc
    · rename_i hb
      cases hc
      rw [h.stop] at hb
      exact hrun _ _ (h.countedHead (by omega)) (by simpa using hb)
    · cases hc
  unfold Sys2Proof.Machine.shapeOf at hs
  cases hfc : FnCode.ofByte fc with
  | none => rw [hfc] at hs; cases hs; exact h
  | some k =>
    rw [hfc] at hs
    cases k
    · exact h.shapeTwo rfl hs
    · exact h.shapeTwo rfl hs
    · exact h.shapeTwo rfl hs
    · exact h.shapeTwo rfl hs
    · exact h.shapeTwo rfl hs
    · exact h.shapeTwo rfl hs
    · exact counted _ (fun d n hd hn => hd.coilRun hn) hs
    · exact counted _ (fun d n hd hn => hd.regRun hn) hs

/-- What the RTU header answers when it succeeds (rule R183). -/
theorem rtuHeader_eq {f : List Byte} (h : 4 ≤ f.length) :
    rtuHeader f = .ok (Cursor.mk f 1 (f.length - 2) [segmentAt f .slaveID 0 1]) := by
  unfold rtuHeader
  rw [if_neg (by omega), if_neg (by omega), if_neg (by omega)]
  rfl

/-- What the TCP header answers when it succeeds (rule R184). -/
theorem tcpHeader_eq {f : List Byte} (h : 8 ≤ f.length) :
    tcpHeader f = .ok (Cursor.mk f 7 f.length
      [segmentAt f .transID 0 2, segmentAt f .protoID 2 2, segmentAt f .length 4 2, segmentAt f .unitID 6 1]) := by
  unfold tcpHeader
  rw [if_neg (by omega), if_neg (by omega)]
  rfl

/-- The bound of the fields of a frame (rules R183, R184). -/
def fieldBound (m : Mode) (f : List Byte) : Nat :=
  match m with
  | .rtu => f.length - 2
  | .tcp => f.length

theorem header_ok {m : Mode} {f : List Byte} {c : Cursor} (h : header m f = .ok c) :
    CursorOf f (fieldBound m f) c ∧ c.pos + 1 ≤ fieldBound m f ∧ (m = .rtu → 4 ≤ f.length) := by
  cases m
  · by_cases h4 : 4 ≤ f.length
    · rw [header, rtuHeader_eq h4] at h
      cases h
      refine ⟨⟨rfl, rfl, by simp [fieldBound]; omega, ⟨rfl, by simp [segmentAt], rfl⟩, ?_⟩, by simp [fieldBound]; omega, fun _ => h4⟩
      intro g hg
      rw [List.mem_singleton.mp hg]
      exact segmentOf_segment (by intro v hv; simpa [Kind.width] using hv)
    · exfalso
      unfold header rtuHeader at h
      dsimp only at h
      split at h
      · cases h
      · split at h
        · cases h
        · rw [if_pos (by omega)] at h
          cases h
  · by_cases h8 : 8 ≤ f.length
    · rw [header, tcpHeader_eq h8] at h
      cases h
      refine ⟨⟨rfl, rfl, by simp [fieldBound]; omega, ?_, ?_⟩, by simp [fieldBound]; omega, by simp⟩
      · simp [Tiles, segmentAt]
      · intro g hg
        simp only [List.mem_cons, List.not_mem_nil, or_false] at hg
        rcases hg with rfl | rfl | rfl | rfl <;>
          exact segmentOf_segment (by intro v hv; simpa [Kind.width] using hv)
    · exfalso
      unfold header tcpHeader at h
      dsimp only at h
      split at h
      · cases h
      · rw [if_pos (by omega)] at h
        cases h

theorem CursorOf.remainder {f : List Byte} {stop : Nat} {c : Cursor} (h : CursorOf f stop c) :
    CursorOf f stop c.remainder ∧ c.remainder.pos = stop := by
  have hs := h.stop
  have hi := h.inside
  unfold Cursor.remainder
  by_cases hp : c.pos < c.stop
  · rw [if_pos hp]
    have := h.emit_skip (k := .data) (w := c.stop - c.pos) (by intro v hv; cases hv) (by omega) (by omega)
    exact ⟨this, by simp [Cursor.skip, Cursor.emit]; omega⟩
  · rw [if_neg hp]
    exact ⟨h, by omega⟩

/-- What a decoded frame is made of: segments that tile it, each read from its own bytes. -/
theorem decodePdu_ok {m : Mode} {f : List Byte} {c : Cursor} {fc : Byte} {v : Value}
    (h : CursorOf f (fieldBound m f) c) (hb : c.pos + 1 ≤ fieldBound m f) (hm : m = .rtu → 4 ≤ f.length)
    (hd : decodePdu m (Sys2Proof.Machine.shapeOf fc) c = .ok v) :
    ∃ segs, v = .segments segs ∧ Tiles 0 f.length segs ∧ ∀ g ∈ segs, SegmentOf f g := by
  unfold decodePdu at hd
  split at hd
  · cases hd
  · rename_i c' hs
    cases hd
    have h1 := h.emit_skip (k := .func) (w := 1) (by intro v hv; simpa [Kind.width] using hv) (by omega) hb
    obtain ⟨h3, hp⟩ := (h1.shapeOf hs).remainder
    refine ⟨_, rfl, ?_⟩
    cases m
    · have h4 := hm rfl
      simp only [fieldBound] at hp
      refine ⟨?_, ?_⟩
      · refine h3.tiles.append ⟨?_, ?_, ?_⟩
        · simp [segmentAt, h3.frame, hp]
        · simp [segmentAt]
        · simp [segmentAt, Tiles, h3.frame]; omega
      · intro g hg
        rcases List.mem_append.mp hg with hg | hg
        · exact h3.segs g hg
        · rw [List.mem_singleton.mp hg, h3.frame]
          exact segmentOf_segment (by intro v hv; simpa [Kind.width] using hv)
    · refine ⟨?_, h3.segs⟩
      have := h3.tiles
      rwa [hp] at this

/-- The decoder's answer, when OK, tiles the frame with segments read from it (rules R181, R201). -/
theorem decodeFrame_ok {m : Mode} {f : List Byte} {v : Value} (h : decodeFrame m f = .ok v) :
    ∃ segs, v = .segments segs ∧ Tiles 0 f.length segs ∧ ∀ g ∈ segs, SegmentOf f g := by
  unfold decodeFrame at h
  split at h
  · cases h
  · rename_i c hc
    obtain ⟨hcur, hb, hm⟩ := header_ok hc
    exact decodePdu_ok hcur hb hm h

/-- A frame that a row reads is read by the shape its function code byte selects (rule R185). -/
theorem decodeShape_eq {m : Mode} {f : List Byte} {c : Cursor} (h : header m f = .ok c)
    (shape : Cursor → Except Raise Cursor) : decodeShape m shape f = decodePdu m shape c := by
  simp [decodeShape, h]

/-- A shell's frame is long enough for its header, and its function code byte stands where the header ends. -/
theorem header_frame (sh : FrameShell) (fc : Byte) (body : List Byte) :
    ∃ c, header sh.mode (sh.frame fc body) = .ok c ∧ c.frame = sh.frame fc body ∧ rd8 c.frame c.pos = fc := by
  cases sh with
  | rtu unit lo hi =>
    refine ⟨_, rtuHeader_eq (by simp [FrameShell.frame]), rfl, rfl⟩
  | tcp tid proto len unit =>
    refine ⟨_, tcpHeader_eq (by simp [FrameShell.frame, be16Bytes]), rfl, rfl⟩

/-- A row's shape reads a shell's frame as the command does. -/
theorem decodeShape_frame (sh : FrameShell) (fc : Byte) (body : List Byte) :
    decodeShape sh.mode (Sys2Proof.Machine.shapeOf fc) (sh.frame fc body) = decodeFrame sh.mode (sh.frame fc body) := by
  obtain ⟨c, hc, -, hf⟩ := header_frame sh fc body
  simp only [decodeShape, decodeFrame, hc, hf]

/-- A shell's frame is its overhead and the body (rules R69, R70). -/
theorem frame_length (sh : FrameShell) (fc : Byte) (body : List Byte) :
    (sh.frame fc body).length = sh.overhead + body.length := by
  cases sh <;> simp [FrameShell.frame, FrameShell.overhead, be16Bytes] <;> omega

/-- The function code byte of a shell's frame. -/
theorem rd8_pduAt (sh : FrameShell) (fc : Byte) (body : List Byte) : rd8 (sh.frame fc body) (pduAt sh) = fc := by
  cases sh <;> rfl

/-- The bytes of a shell's frame after the function code byte are those of the body. -/
theorem rd8_body (sh : FrameShell) (fc : Byte) (body : List Byte) {i : Nat} (h : i < body.length) :
    rd8 (sh.frame fc body) (pduAt sh + 1 + i) = body.getD i 0 := by
  cases sh with
  | rtu unit lo hi =>
    simp [FrameShell.frame, pduAt, rd8, List.getD_eq_getElem?_getD, show 1 + 1 + i = i + 1 + 1 by omega, h,
      List.getElem?_append_left]
  | tcp tid proto len unit =>
    simp [FrameShell.frame, be16Bytes, pduAt, rd8, List.getD_eq_getElem?_getD,
      show 7 + 1 + i = i + 1 + 1 + 1 + 1 + 1 + 1 + 1 + 1 by omega]

/-- Where the header leaves the decoder in a shell's frame (rules R183, R184). -/
theorem header_shell (sh : FrameShell) (fc : Byte) (body : List Byte) :
    header sh.mode (sh.frame fc body) =
      .ok (Cursor.mk (sh.frame fc body) (pduAt sh) (pduAt sh + 1 + body.length) (headerSegments sh)) := by
  cases sh with
  | rtu unit lo hi =>
    simp only [header, FrameShell.mode]
    rw [rtuHeader_eq (by simp [FrameShell.frame])]
    simp [FrameShell.frame, pduAt, headerSegments, segmentAt, segmentValue, fieldValue, rd8]
    omega
  | tcp tid proto len unit =>
    simp only [header, FrameShell.mode]
    rw [tcpHeader_eq (by simp [FrameShell.frame, be16Bytes])]
    simp [FrameShell.frame, be16Bytes, pduAt, headerSegments, segmentAt, segmentValue, fieldValue, rd8, rd16]
    omega

/-- What the remainder adds, and that it leaves the frame alone (rules R195, R196). -/
theorem remainder_eq (c : Cursor) (h : c.pos ≤ c.stop) :
    c.remainder.segs = c.segs ++ remainderSegments c.pos (c.stop - c.pos) ∧ c.remainder.frame = c.frame := by
  unfold Cursor.remainder remainderSegments
  by_cases hp : c.pos < c.stop
  · rw [if_pos hp, if_neg (by omega)]; exact ⟨rfl, rfl⟩
  · rw [if_neg hp, if_pos (by omega)]; simp

/-- What comes last in a shell's frame (rule R197). -/
theorem trailer_shell (sh : FrameShell) (fc : Byte) (body : List Byte) (c : Cursor) (hf : c.frame = sh.frame fc body) :
    (c.trailer sh.mode).segs = c.segs ++ trailerSegments (pduAt sh + 1 + body.length) sh := by
  cases sh with
  | rtu unit lo hi =>
    have h := getD_last_two ([unit, fc] ++ body) lo hi
    simp only [Cursor.trailer, FrameShell.mode, Cursor.emit, trailerSegments, segmentAt, segmentValue, hf]
    simp only [FrameShell.frame]
    rw [show ([unit, fc] ++ body ++ [lo, hi]).length - 2 = ([unit, fc] ++ body).length by simp,
      show rd8 ([unit, fc] ++ body ++ [lo, hi]) ([unit, fc] ++ body).length = lo from h.1,
      show rd8 ([unit, fc] ++ body ++ [lo, hi]) (([unit, fc] ++ body).length + 1) = hi from h.2, le16_eq_be16]
    simp [pduAt]
    omega
  | tcp tid proto len unit => simp [Cursor.trailer, FrameShell.mode, trailerSegments]

end Sys2Proof.Machine
end

