-- ==== Sys2Proof/Laws/HostText.lean ====
section
/-! SUPPORT. What the host's conversions of user input can answer (rules R113, R114, R115, R257). -/

namespace Sys2Proof.Machine

/-- A conversion of a list answers element by element, in order. -/
theorem convertAll_eq_some {α β : Type} (convert : α → Option β) (xs : List α) (ys : List β) :
    convertAll convert xs = some ys ↔ xs.map convert = ys.map some := by
  induction xs generalizing ys with
  | nil => cases ys <;> simp [convertAll]
  | cons x xs ih =>
    cases ys with
    | nil => simp only [convertAll]; split <;> simp
    | cons y ys =>
      rw [List.map_cons, List.map_cons, List.cons.injEq, ← ih]
      cases hx : convert x <;> cases hxs : convertAll convert xs <;> simp [convertAll, hx, hxs]

/-- A conversion of a list fails exactly where some element does. -/
theorem convertAll_eq_none {α β : Type} (convert : α → Option β) (xs : List α) :
    convertAll convert xs = none ↔ ∃ x ∈ xs, convert x = none := by
  induction xs with
  | nil => simp [convertAll]
  | cons x xs ih => cases hx : convert x <;> cases hxs : convertAll convert xs <;> simp_all [convertAll]

/-- The numbers a field takes are the integers from 0 to its greatest value. -/
theorem naturalOfNumber_eq_some {most n : Nat} {v : HostNumber} :
    naturalOfNumber most v = some n ↔ n ≤ most ∧ v = .int n := by
  cases v with
  | int z =>
    cases z with
    | ofNat k =>
      by_cases h : k ≤ most
      · simp only [naturalOfNumber, if_pos h, Option.some.injEq, HostNumber.int.injEq, Int.ofNat_eq_natCast, Nat.cast_inj]
        omega
      · simp only [naturalOfNumber, if_neg h, HostNumber.int.injEq, Int.ofNat_eq_natCast, Nat.cast_inj]
        simp
        omega
    | negSucc k => simp [naturalOfNumber]
  | fraction => simp [naturalOfNumber]
  | notNumber => simp [naturalOfNumber]

theorem issueNumbers_of_some {cmd : Byte} {u : UserParams} {p : Params} (h : paramsOfNumbers u = some p) (s : State) :
    s.issueNumbers cmd u = s.issue (Request.mk cmd [] p) := by simp [State.issueNumbers, h]

theorem issueNumbers_of_none {cmd : Byte} {u : UserParams} (h : paramsOfNumbers u = none) (s : State) :
    s.issueNumbers cmd u = s := by simp [State.issueNumbers, h]

end Sys2Proof.Machine
end

