-- ==== Sys2Proof/Laws/PerInstr.lean ====
section
/-! SUPPORT. What holds of every instruction as the host passes it, constructor by constructor: its descriptor has the
reserved bits 0 and is not the excluded value 0x04 (rules R60, R61), and a command's operand record is the one its row
names (rules R62, R63, R65). -/

/-- The descriptor of an instruction is one of the seven of rule R61, and a descriptor the port accepts. -/
def Sys2Proof.Laws.Descriptor.Statement (i : Sys2Proof.Instr) : Prop :=
  (Sys2Proof.encode i).cmd &&& 0xF8 = 0 ∧ (Sys2Proof.encode i).cmd ≠ 0x04 ∧
    ∃ c, Sys2Proof.decode (Sys2Proof.encode i) = .ok c ∧ c.isCommand = true

namespace Sys2Proof.Laws.Descriptor

open Sys2Proof Sys2Proof.Machine

/-- A request whose descriptor is one of the seven satisfies the statement. -/
theorem of_cmd {r : Request} (h : r.cmd ∈ ([0x00, 0x01, 0x05, 0x02, 0x06, 0x03, 0x07] : List Byte)) :
    r.cmd &&& 0xF8 = 0 ∧ r.cmd ≠ 0x04 ∧ ∃ c, decode r = .ok c ∧ c.isCommand = true := by
  rcases decode_cases r with h' | h' | h' | h' | h' | h' | h' | h'
  iterate 7 exact ⟨by rw [h'.1]; rfl, by rw [h'.1]; decide, _, h'.2, rfl⟩
  exact absurd h h'.1

/-- The request of a use of a function code row has one of the six descriptors that meet a function code. -/
theorem of_use {α : Type} (fc : Byte) (record : Byte → α → Params) (u : PduUse α) :
    (u.request fc record).cmd ∈ ([0x00, 0x01, 0x05, 0x02, 0x06, 0x03, 0x07] : List Byte) := by
  cases u with
  | validate m _ _ => cases m <;> simp [PduUse.request, validateCmd]
  | encode m _ _ => cases m <;> simp [PduUse.request, encodeCmd]
  | decode sh _ => cases sh <;> simp [PduUse.request, decodeCmd, FrameShell.mode]

theorem crc16 (data : List Byte) : Statement (.crc16 data) := of_cmd (by simp [encode])
theorem validateRtu (p : Params) : Statement (.validateRtu p) := of_cmd (by simp [encode])
theorem encodeRtu (p : Params) : Statement (.encodeRtu p) := of_cmd (by simp [encode])
theorem decodeRtu (frame : List Byte) : Statement (.decodeRtu frame) := of_cmd (by simp [encode])
theorem validateTcp (p : Params) : Statement (.validateTcp p) := of_cmd (by simp [encode])
theorem encodeTcp (p : Params) : Statement (.encodeTcp p) := of_cmd (by simp [encode])
theorem decodeTcp (frame : List Byte) : Statement (.decodeTcp frame) := of_cmd (by simp [encode])
theorem fc01ReadCoils (u : PduUse ReadFields) : Statement (.fc01ReadCoils u) := of_cmd (of_use _ _ u)
theorem fc02ReadDiscreteInputs (u : PduUse ReadFields) : Statement (.fc02ReadDiscreteInputs u) := of_cmd (of_use _ _ u)
theorem fc03ReadHoldingRegisters (u : PduUse ReadFields) : Statement (.fc03ReadHoldingRegisters u) := of_cmd (of_use _ _ u)
theorem fc04ReadInputRegisters (u : PduUse ReadFields) : Statement (.fc04ReadInputRegisters u) := of_cmd (of_use _ _ u)
theorem fc05WriteSingleCoil (u : PduUse WriteOneFields) : Statement (.fc05WriteSingleCoil u) := of_cmd (of_use _ _ u)
theorem fc06WriteSingleRegister (u : PduUse WriteOneFields) : Statement (.fc06WriteSingleRegister u) := of_cmd (of_use _ _ u)
theorem fc0FWriteMultipleCoils (u : PduUse WriteCoilsFields) : Statement (.fc0FWriteMultipleCoils u) := of_cmd (of_use _ _ u)
theorem fc10WriteMultipleRegisters (u : PduUse WriteRegsFields) : Statement (.fc10WriteMultipleRegisters u) := of_cmd (of_use _ _ u)
theorem fcUnknown (fc : Byte) (u : PduUse RecordFields) : Statement (.fcUnknown fc u) := of_cmd (of_use _ _ u)

end Sys2Proof.Laws.Descriptor
end

