-- ==== Sys2Proof/Tests/Slice0.lean ====
section
/-! SUPPORT. The author's own tests. Their expected results are the spec's test vectors (95_test_vectors.md) or worked out
by hand from the rules named. The last part shows, for every statement that has hypotheses, concrete states and operands
that meet them. -/

namespace Sys2Proof.Tests

open Sys2Proof Sys2Proof.Machine

/-- A state for tests: TID given, reset done, nothing waiting and nothing returned. -/
def at_ (tid : U16) : State := State.mk tid true 1 [] []

/-- The result a step returned last, and the TID after it. -/
def seen (o : Host.Outcome State Fault Refusal) : Option (Result × U16) :=
  match o with
  | .next t => t.outbox.getLast?.map fun r => (r, t.tid)
  | _ => none

/-- A request with a byte operand. -/
def bytesRequest (cmd : Byte) (bytes : List Byte) : Request := Request.mk cmd bytes (Params.mk 0 0 0 0 0 [] [])

/-- One step of a command on the state for tests. -/
def ran (tid : U16) (r : Request) : Option (Result × U16) := seen (step ((at_ tid).issue r))

/-- A frame's segments as DECODE returned them: kind, place, length, value. -/
def shown (o : Option (Result × U16)) : List (Kind × Nat × Nat × Option U16) :=
  match o with
  | some (.ok (.segments segs), _) => segs.map fun g => (g.kind, g.off, g.len, g.value)
  | _ => []

/-! ## Well-formedness: one term for each check, refused by it -/

/-- Rule R42, sequences: one byte more than `IN_CAP`, for CRC16 and for DECODE. -/
theorem test_illFormed_sequence : ¬ WellFormed (.crc16 (List.replicate (Config.seqCap + 1) 0)) ∧
    ¬ WellFormed (.decodeRtu (List.replicate (Config.seqCap + 1) 0)) ∧
    ¬ WellFormed (.decodeTcp (List.replicate (Config.seqCap + 1) 0)) := by
  simp [WellFormed, Instr.wellFormed]

/-- Rule R42, the coil list of a record. -/
theorem test_illFormed_coils (m : Mode) :
    ¬ WellFormed (validateOf m (Params.mk 1 0x0F 0 1 0 (List.replicate (Config.listCap + 1) true) [])) ∧
    ¬ WellFormed (encodeOf m (Params.mk 1 0x0F 0 1 0 (List.replicate (Config.listCap + 1) true) [])) := by
  cases m <;> simp [WellFormed, Instr.wellFormed, listsWithinCap, validateOf, encodeOf]

/-- Rule R42, the register list of a record. -/
theorem test_illFormed_regs (m : Mode) :
    ¬ WellFormed (validateOf m (Params.mk 1 0x10 0 1 0 [] (List.replicate (Config.listCap + 1) 7))) ∧
    ¬ WellFormed (encodeOf m (Params.mk 1 0x10 0 1 0 [] (List.replicate (Config.listCap + 1) 7))) := by
  cases m <;> simp [WellFormed, Instr.wellFormed, listsWithinCap, validateOf, encodeOf]

/-- The lists of the rows of 0x0F and 0x10, and of the row of unknown codes. -/
theorem test_illFormed_rowLists :
    ¬ WellFormed (.fc0FWriteMultipleCoils (.validate .rtu 1 ⟨0, 1, List.replicate (Config.listCap + 1) true⟩)) ∧
    ¬ WellFormed (.fc10WriteMultipleRegisters (.encode .tcp 1 ⟨0, 1, List.replicate (Config.listCap + 1) 7⟩)) ∧
    ¬ WellFormed (.fcUnknown 0x83 (.encode .rtu 1 ⟨0, 1, 0, [], List.replicate (Config.listCap + 1) 7⟩)) := by
  simp [WellFormed, Instr.wellFormed, PduUse.wellFormed, listsWithinCap]

/-- The frame of a row, header and trailer counted (rules R42, R69, R70). -/
theorem test_illFormed_rowFrame :
    ¬ WellFormed (.fc01ReadCoils (.decode (.rtu 1 0 0) (List.replicate (Config.seqCap - 3) 0))) ∧
    ¬ WellFormed (.fc06WriteSingleRegister (.decode (.tcp 1 0 6 1) (List.replicate (Config.seqCap - 7) 0))) := by
  have := seqCap_floor
  simp [WellFormed, Instr.wellFormed, PduUse.wellFormed, FrameShell.overhead]
  omega

/-- The row of unknown codes takes no code that another row names (rule R77). -/
theorem test_illFormed_fcUnknown :
    ¬ WellFormed (.fcUnknown 0x10 (.validate .rtu 1 ⟨0, 1, 0, [], []⟩)) ∧
    WellFormed (.fcUnknown 0x11 (.validate .rtu 1 ⟨0, 1, 0, [], []⟩)) := by decide

/-! ## Decoding: words written out from the spec's encodings -/

/-- Rule R61 and V-CMD-01: the descriptor byte 0000 0 M OP of each of the seven commands. -/
theorem test_decode_descriptors :
    decode (bytesRequest 0b00000000 [7]) = .ok (.crc16 [7]) ∧
    decode (bytesRequest 0b00000001 []) = .ok (.validateRtu (Params.mk 0 0 0 0 0 [] [])) ∧
    decode (bytesRequest 0b00000010 []) = .ok (.encodeRtu (Params.mk 0 0 0 0 0 [] [])) ∧
    decode (bytesRequest 0b00000011 [7]) = .ok (.decodeRtu [7]) ∧
    decode (bytesRequest 0b00000101 []) = .ok (.validateTcp (Params.mk 0 0 0 0 0 [] [])) ∧
    decode (bytesRequest 0b00000110 []) = .ok (.encodeTcp (Params.mk 0 0 0 0 0 [] [])) ∧
    decode (bytesRequest 0b00000111 [7]) = .ok (.decodeTcp [7]) := by decide

/-- V-CMD-02 and V-CMD-03: refused by name. -/
theorem test_decode_refused :
    decode (bytesRequest 0x04 []) = .error (.crc16WithMode 0x04) ∧
    decode (bytesRequest 0x08 []) = .error (.reservedBits 0x08) ∧
    decode (bytesRequest 0x0B []) = .error (.reservedBits 0x0B) ∧
    decode (bytesRequest 0x80 []) = .error (.reservedBits 0x80) ∧
    decode (bytesRequest 0xFF []) = .error (.reservedBits 0xFF) := by decide

/-- Rule R68: the PDU of 0x01 in V-ENC-01's frame. -/
theorem test_decodeFc_01 : decodeFc (bytesRequest 0x03 [0x04, 0x01, 0x00, 0x0A, 0x00, 0x0D, 0xDD, 0x98]) =
    some (.fc01ReadCoils (.decode (.rtu 0x04 0xDD 0x98) [0x00, 0x0A, 0x00, 0x0D])) := by decide
/-- Rule R68: V-ENC-03's frame. -/
theorem test_decodeFc_02 : decodeFc (bytesRequest 0x03 [0x01, 0x02, 0x00, 0x00, 0x07, 0xD0, 0x7B, 0xA6]) =
    some (.fc02ReadDiscreteInputs (.decode (.rtu 0x01 0x7B 0xA6) [0x00, 0x00, 0x07, 0xD0])) := by decide
/-- Rules R68, R70: V-ENC-17's frame. -/
theorem test_decodeFc_03 :
    decodeFc (bytesRequest 0x07 [0x12, 0x34, 0x00, 0x00, 0x00, 0x06, 0x01, 0x03, 0x00, 0x6B, 0x00, 0x03]) =
    some (.fc03ReadHoldingRegisters (.decode (.tcp 0x1234 0 6 0x01) [0x00, 0x6B, 0x00, 0x03])) := by decide
/-- Rule R68: V-ENC-04's frame. -/
theorem test_decodeFc_04 : decodeFc (bytesRequest 0x03 [0x01, 0x04, 0xFF, 0xFF, 0x00, 0x7D, 0x30, 0x0F]) =
    some (.fc04ReadInputRegisters (.decode (.rtu 0x01 0x30 0x0F) [0xFF, 0xFF, 0x00, 0x7D])) := by decide
/-- Rules R68, R70: V-ENC-21's frame. -/
theorem test_decodeFc_05 :
    decodeFc (bytesRequest 0x07 [0x00, 0x07, 0x00, 0x00, 0x00, 0x06, 0x01, 0x05, 0x00, 0xAC, 0xFF, 0x00]) =
    some (.fc05WriteSingleCoil (.decode (.tcp 7 0 6 0x01) [0x00, 0xAC, 0xFF, 0x00])) := by decide
/-- Rule R68: V-ENC-07's frame. -/
theorem test_decodeFc_06 : decodeFc (bytesRequest 0x03 [0x01, 0x06, 0x00, 0x01, 0x00, 0x03, 0x98, 0x0B]) =
    some (.fc06WriteSingleRegister (.decode (.rtu 0x01 0x98 0x0B) [0x00, 0x01, 0x00, 0x03])) := by decide
/-- Rules R68, R72: V-ENC-09's frame, and the record it was built from (rule R64). -/
theorem test_decodeFc_0F :
    decodeFc (bytesRequest 0x03 [0x01, 0x0F, 0x00, 0x13, 0x00, 0x0A, 0x02, 0xCD, 0x01, 0x72, 0xCB]) =
      some (.fc0FWriteMultipleCoils (.decode (.rtu 0x01 0x72 0xCB) [0x00, 0x13, 0x00, 0x0A, 0x02, 0xCD, 0x01])) ∧
    decodeFc (Request.mk 0x02 [] (Params.mk 0x01 0x0F 0x13 2 0 [true, false] [])) =
      some (.fc0FWriteMultipleCoils (.encode .rtu 0x01 ⟨0x13, 2, [true, false]⟩)) := by decide
/-- Rules R68, R72: V-ENC-14's frame, and the record it was built from (rule R64). -/
theorem test_decodeFc_10 :
    decodeFc (bytesRequest 0x03 [0xFF, 0x10, 0x00, 0x00, 0x00, 0x01, 0x02, 0xFF, 0xFF, 0xEF, 0x84]) =
      some (.fc10WriteMultipleRegisters (.decode (.rtu 0xFF 0xEF 0x84) [0x00, 0x00, 0x00, 0x01, 0x02, 0xFF, 0xFF])) ∧
    decodeFc (Request.mk 0x05 [] (Params.mk 0xFF 0x10 0 1 0 [] [0xFFFF])) =
      some (.fc10WriteMultipleRegisters (.validate .tcp 0xFF ⟨0, 1, [0xFFFF]⟩)) := by decide
/-- Rule R77: 0x83 of V-DEC-15 and 0x0E, 0x11 beside the eight. -/
theorem test_decodeFc_unknown :
    decodeFc (bytesRequest 0x03 [0x01, 0x83, 0x02, 0xC0, 0xF1]) =
      some (.fcUnknown 0x83 (.decode (.rtu 0x01 0xC0 0xF1) [0x02])) ∧
    decodeFc (Request.mk 0x01 [] (Params.mk 1 0x0E 0 0 0 [] [])) =
      some (.fcUnknown 0x0E (.validate .rtu 1 ⟨0, 0, 0, [], []⟩)) ∧
    FnCode.ofByte 0x11 = none := by decide

/-- The table's words: each descriptor decodes as one; 0x0F, 0x10 and 0x04, which are none, as function codes; and the
very next step after reset runs what the decoder read. -/
theorem test_tableWords :
    decodeTableWord 8 0x02 = some (.encodeRtu (Params.mk 0 0 0 0 0 [] [])) ∧
    decodeTableWord 8 0x04 = some (.fc04ReadInputRegisters (.decode (.tcp 0 0 0 0) [0, 0, 0, 0])) ∧
    decodeTableWord 8 0x10 = some (.fc10WriteMultipleRegisters (.decode (.tcp 0 0 0 0) [0, 0, 0, 0, 0])) ∧
    decodeTableWord 8 0x83 = none := by decide

/-! ## One step of each command, and of each row through its command -/

/-- V-CRC-02. -/
theorem test_crc16_frame : ran 7 (bytesRequest 0x00 [0x01, 0x03, 0x00, 0x01, 0x00, 0x01]) = some (.ok (.crc 0xCAD5), 7) := by
  decide +kernel
/-- V-CRC-08, the catalogue's check value, and V-CRC-01. -/
theorem test_crc16_check : crc16 [0x31, 0x32, 0x33, 0x34, 0x35, 0x36, 0x37, 0x38, 0x39] = 0x4B37 ∧ crc16 [] = 0xFFFF := by
  decide +kernel

/-- V-VAL-02 by VALIDATE.RTU, and status code and mask of the result (rules R221, R222). -/
theorem test_validateRtu_quantity :
    ran 7 (Request.mk 0x01 [] (Params.mk 1 0x01 0 0 0 [] [])) = some (.raised (.paramInvalid 0x04), 7) ∧
    (Result.raised (.paramInvalid 0x04)).status = 0x02 ∧ (Result.raised (.paramInvalid 0x04)).mask = some 0x04 := by decide
/-- V-VAL-12 by VALIDATE.TCP: both checks fail and both bits are set. -/
theorem test_validateTcp_bothBits :
    ran 7 (Request.mk 0x05 [] (Params.mk 1 0x0F 0 0 0 [true] [])) = some (.raised (.paramInvalid 0x14), 7) := by decide
/-- V-ENC-09: packing and CRC; TID untouched. -/
theorem test_encodeRtu_coils :
    ran 7 (Request.mk 0x02 []
      (Params.mk 0x01 0x0F 0x13 10 0 [true, false, true, true, false, false, true, true, true, false] [])) =
    some (.ok (.adu [0x01, 0x0F, 0x00, 0x13, 0x00, 0x0A, 0x02, 0xCD, 0x01, 0x72, 0xCB]), 7) := by decide +kernel
/-- V-ENC-26. -/
theorem test_encodeRtu_list :
    ran 7 (Request.mk 0x02 [] (Params.mk 1 0x0F 0 3 0 [true, true] [])) = some (.raised (.paramInvalid 0x10), 7) := by decide
/-- V-ENC-19: TID 0xFFFF wraps to 1. -/
theorem test_encodeTcp_wrap :
    ran 0xFFFF (Request.mk 0x06 [] (Params.mk 0x01 0x10 1 2 0 [] [0x000A, 0x0102])) =
    some (.ok (.adu [0xFF, 0xFF, 0x00, 0x00, 0x00, 0x0B, 0x01, 0x10, 0x00, 0x01, 0x00, 0x02, 0x04, 0x00, 0x0A, 0x01, 0x02]),
      1) := by decide +kernel
/-- V-ENC-24: a failed TCP encode keeps TID. -/
theorem test_encodeTcp_unsupported :
    ran 5 (Request.mk 0x06 [] (Params.mk 1 0x07 0 0 0 [] [])) = some (.raised .unsupportedFc, 5) := by decide
/-- V-DEC-22: a wrong CRC is shown, not detected. -/
theorem test_decodeRtu_wrongCrc :
    shown (ran 7 (bytesRequest 0x03 [0x01, 0x05, 0x00, 0xAC, 0xFF, 0x00, 0x4E, 0x8B])) =
    [(.slaveID, 0, 1, some 0x01), (.func, 1, 1, some 0x05), (.addr, 2, 2, some 0x00AC), (.value, 4, 2, some 0xFF00),
     (.crc, 6, 2, some 0x8B4E)] := by decide +kernel
/-- V-DEC-21: the byte count reaches into the CRC. -/
theorem test_decodeRtu_byteCount :
    ran 7 (bytesRequest 0x03 [0x01, 0x0F, 0x00, 0x13, 0x00, 0x0A, 0x02, 0xCD, 0x72, 0xCB]) =
    some (.raised .truncated, 7) := by decide +kernel
/-- V-DEC-18: an odd byte count leaves a Data segment. -/
theorem test_decodeTcp_oddCount :
    (shown (ran 7 (bytesRequest 0x07 [0x00, 0x01, 0x00, 0x00, 0x00, 0x00, 0x01, 0x10, 0x00, 0x01, 0x00, 0x02, 0x03, 0x00,
      0x0A, 0x01]))).drop 4 =
    [(.func, 7, 1, some 0x10), (.addr, 8, 2, some 1), (.qty, 10, 2, some 2), (.byteCount, 12, 1, some 3),
     (.regValue, 13, 2, some 0x000A), (.data, 15, 1, none)] := by decide +kernel
/-- V-DEC-13: an unknown code's bytes are one Data segment, and the MBAP length is not checked. -/
theorem test_decodeTcp_unknown :
    shown (ran 7 (bytesRequest 0x07 [0x00, 0x01, 0x00, 0x00, 0x00, 0x02, 0x01, 0x2B, 0x01, 0x02, 0x03])) =
    [(.transID, 0, 2, some 1), (.protoID, 2, 2, some 0), (.length, 4, 2, some 2), (.unitID, 6, 1, some 1),
     (.func, 7, 1, some 0x2B), (.data, 8, 3, none)] := by decide +kernel

/-! ## The function code rows themselves -/

/-- V-ENC-01. -/
theorem test_fc01_encode : seen (exec (.fc01ReadCoils (.encode .rtu 0x04 ⟨10, 13⟩)) (at_ 7)) =
    some (.ok (.adu [0x04, 0x01, 0x00, 0x0A, 0x00, 0x0D, 0xDD, 0x98]), 7) := by decide +kernel
/-- V-VAL-03. -/
theorem test_fc02_validate :
    seen (exec (.fc02ReadDiscreteInputs (.validate .rtu 1 ⟨0, 2000⟩)) (at_ 7)) = some (.ok .valid, 7) ∧
    seen (exec (.fc02ReadDiscreteInputs (.validate .rtu 1 ⟨0, 2001⟩)) (at_ 7)) =
      some (.raised (.paramInvalid 0x04), 7) := by decide
/-- V-ENC-17. -/
theorem test_fc03_encode : seen (exec (.fc03ReadHoldingRegisters (.encode .tcp 0x01 ⟨0x6B, 3⟩)) (at_ 0x1234)) =
    some (.ok (.adu [0x12, 0x34, 0x00, 0x00, 0x00, 0x06, 0x01, 0x03, 0x00, 0x6B, 0x00, 0x03]), 0x1235) := by
  decide +kernel
/-- V-VAL-05, and the bound 125 of rule R132 (V-VAL-04). -/
theorem test_fc04_validate :
    seen (exec (.fc04ReadInputRegisters (.validate .tcp 1 ⟨0, 0xFFFF⟩)) (at_ 7)) = some (.raised (.paramInvalid 0x04), 7) ∧
    seen (exec (.fc04ReadInputRegisters (.validate .tcp 1 ⟨0, 125⟩)) (at_ 7)) = some (.ok .valid, 7) ∧
    seen (exec (.fc04ReadInputRegisters (.validate .tcp 1 ⟨0, 126⟩)) (at_ 7)) =
      some (.raised (.paramInvalid 0x04), 7) := by decide
/-- V-VAL-07: 0x0001 is no coil value. -/
theorem test_fc05_validate : seen (exec (.fc05WriteSingleCoil (.validate .rtu 1 ⟨0xAC, 0x0001⟩)) (at_ 7)) =
    some (.raised (.paramInvalid 0x08), 7) := by decide
/-- V-ENC-21. -/
theorem test_fc05_encode : seen (exec (.fc05WriteSingleCoil (.encode .tcp 0x01 ⟨0xAC, 0xFF00⟩)) (at_ 7)) =
    some (.ok (.adu [0x00, 0x07, 0x00, 0x00, 0x00, 0x06, 0x01, 0x05, 0x00, 0xAC, 0xFF, 0x00]), 8) := by decide +kernel
/-- V-ENC-08. -/
theorem test_fc06_encode : seen (exec (.fc06WriteSingleRegister (.encode .rtu 0x00 ⟨0xFFFF, 0xFFFF⟩)) (at_ 7)) =
    some (.ok (.adu [0x00, 0x06, 0xFF, 0xFF, 0xFF, 0xFF, 0x89, 0x8F]), 7) := by decide +kernel
/-- V-ENC-12: the ninth coil opens a second byte. -/
theorem test_fc0F_encode :
    seen (exec (.fc0FWriteMultipleCoils
      (.encode .rtu 0x01 ⟨0, 9, [false, false, false, false, false, false, false, false, true]⟩)) (at_ 7)) =
    some (.ok (.adu [0x01, 0x0F, 0x00, 0x00, 0x00, 0x09, 0x02, 0x00, 0x01, 0x24, 0xBC]), 7) := by decide +kernel
/-- V-DEC-17's PDU in an RTU frame: one CoilData for each byte. -/
theorem test_fc0F_decode :
    (shown (seen (exec (.fc0FWriteMultipleCoils
      (.decode (.rtu 1 0x72 0xCB) [0x00, 0x13, 0x00, 0x0A, 0x02, 0xCD, 0x01])) (at_ 7)))).drop 4 =
    [(.byteCount, 6, 1, some 2), (.coilData, 7, 1, some 0xCD), (.coilData, 8, 1, some 0x01), (.crc, 9, 2, some 0xCB72)] := by
  decide +kernel
/-- V-ENC-14. -/
theorem test_fc10_encode : seen (exec (.fc10WriteMultipleRegisters (.encode .rtu 0xFF ⟨0, 1, [0xFFFF]⟩)) (at_ 7)) =
    some (.ok (.adu [0xFF, 0x10, 0x00, 0x00, 0x00, 0x01, 0x02, 0xFF, 0xFF, 0xEF, 0x84]), 7) := by decide +kernel
/-- V-VAL-15. -/
theorem test_fc10_validate : seen (exec (.fc10WriteMultipleRegisters (.validate .rtu 1 ⟨0, 2, [1]⟩)) (at_ 7)) =
    some (.raised (.paramInvalid 0x10), 7) := by decide
/-- V-VAL-16 and V-DEC-15. -/
theorem test_fcUnknown :
    seen (exec (.fcUnknown 0x83 (.validate .rtu 1 ⟨0, 0, 0, [], []⟩)) (at_ 7)) = some (.raised .unsupportedFc, 7) ∧
    shown (seen (exec (.fcUnknown 0x83 (.decode (.rtu 1 0xC0 0xF1) [0x02])) (at_ 7))) =
      [(.slaveID, 0, 1, some 1), (.func, 1, 1, some 0x83), (.data, 2, 1, none), (.crc, 3, 2, some 0xF1C0)] := by
  decide +kernel

/-! ## The port, reset, and the host's text -/

/-- The table's words as the first command after reset: ENCODE.RTU of an empty record (code 0x00 unsupported, V-VAL-16),
DECODE.RTU of an empty frame (V-DEC-02), and a zero PDU of 0x10 read in a frame (rules R184, R193). -/
theorem test_firstStep :
    (seen (step (State.reset.withFetchWord 8 0x02))).map (fun x => x.1.status) = some 0x01 ∧
    (seen (step (State.reset.withFetchWord 8 0x03))).map (fun x => x.1.status) = some 0x10 ∧
    (seen (step (State.reset.withFetchWord 8 0x10))).map (fun x => x.1.status) = some 0x00 := by decide
/-- Rules R226, R252: where the port has no step. -/
theorem test_noStep :
    (match step ((at_ 7).issue (bytesRequest 0x04 [1, 2])) with
      | .refused (.descriptor (.crc16WithMode 0x04)) => true
      | _ => false) = true ∧
    (match step (State.mk 7 false 1 [.command (bytesRequest 0x00 [])] []) with
      | .fault .commandBeforeReset => true
      | _ => false) = true := by decide
/-- V-HEX-01 to V-HEX-03. -/
theorem test_formatHex :
    formatHex (.int 4) = some ['0', '4'] ∧ formatHex (.int 10) 4 = some ['0', '0', '0', 'A'] ∧
    formatHex (.int 0xABC) 2 = some ['A', 'B', 'C'] := by decide
/-- V-HEX-05 to V-HEX-08, some of each. -/
theorem test_parseHexToken :
    parseHexToken ['0', 'X', '1', 'f'] = some 0x1F ∧ parseHexToken ['1', 'F', 'H'] = some 0x1F ∧
    parseHexToken ['7'] = some 0x07 ∧ parseHexToken ['0', 'x'] = none ∧ parseHexToken ['h'] = none ∧
    parseHexToken [] = none ∧ parseHexToken ['1', '0', '0'] = none ∧ parseHexToken ['0', 'x', '1', 'F', 'h'] = none := by
  decide
/-- V-HEX-09 shortened, V-HEX-10, V-HEX-11. -/
theorem test_parseHexText :
    parseHexText [' ', ' ', '0', '4', ' ', '0', 'x', '0', '0', ' ', '0', 'A', 'h', ' '] = some [0x04, 0x00, 0x0A] ∧
    parseHexText ['0', '4', ' ', '0', '1', ' ', 'Z', 'Z'] = none ∧ parseHexText [] = some [] := by decide
/-- Rules R63, R257: 255 is the last unit id, 300 is none, and a coil is 0 or 1. -/
theorem test_paramsOfNumbers :
    paramsOfNumbers { unit := .int 255, fc := .int 0x0F, addr := .int 65535, qty := .int 2, coils := [.int 1, .int 0] } =
      some (Params.mk 0xFF 0x0F 0xFFFF 2 0 [true, false] []) ∧
    paramsOfNumbers { unit := .int 300, fc := .int 1, qty := .int 1 } = none ∧
    paramsOfNumbers { fc := .int 0x0F, qty := .int 1, coils := [.int 2] } = none ∧
    paramsOfNumbers { fc := .int 0x10, qty := .int 1, regs := [.int 65536] } = none ∧
    paramsOfNumbers { fc := .int 6, value := .notNumber } = none := by decide
/-- Rule R257: the block would see 0 in place of 65536 or -1. -/
theorem test_clampedField :
    clampedField (.int 65536) = some 0 ∧ clampedField (.int (-1)) = some 0 ∧ clampedField (.int 0x1234) = some 0x1234 := by
  decide
/-- V-HEX-12, V-HEX-13. -/
theorem test_decToHighLow :
    decToHighLowBytes (.int 10) = some [0x00, 0x0A] ∧ decToHighLowBytes (.int 65535) = some [0xFF, 0xFF] ∧
    decToHighLowBytes (.int 65536) = some [0, 0] ∧ decToHighLowBytes (.int (-1)) = some [0, 0] := by decide

/-! ## The hypotheses of the statements are met -/

theorem fits_small {p : Params} (h : p.coils.length ≤ 1969 ∧ p.regs.length ≤ 1969) : Fits p :=
  ⟨le_trans h.1 listCap_floor, le_trans h.2 listCap_floor⟩

theorem seq_small {n : Nat} (h : n ≤ 259) : n ≤ Config.seqCap := le_trans h seqCap_floor

/-- A record for tests. -/
def record (fc : Byte) (qty value : U16) (coils : List Bool) (regs : List U16) : Params :=
  Params.mk 0x11 fc 0xFFFF qty value coils regs

/-- Largest lists of 0x0F and 0x10. -/
theorem fits_replicate (fc : Byte) (q : U16) {n k : Nat} (hn : n ≤ 1969) (hk : k ≤ 1969) :
    Fits (record fc q 0 (List.replicate n true) (List.replicate k 7)) :=
  fits_small ⟨by simpa [record] using hn, by simpa [record] using hk⟩

theorem valid_coils {n : Nat} (h : 1 ≤ n ∧ n ≤ 1968) :
    Valid (record 0x0F (BitVec.ofNat 16 n) 0 (List.replicate n true) (List.replicate 0 7)) := by
  simp [Valid, record]; omega

theorem valid_regs {n : Nat} (h : 1 ≤ n ∧ n ≤ 123) :
    Valid (record 0x10 (BitVec.ofNat 16 n) 0 (List.replicate 0 true) (List.replicate n 7)) := by
  simp [Valid, record]; omega

/-- Every descriptor of the table, and refused ones at the edges, at the head of a queue. -/
theorem test_meets_DescriptorSelectsCommand :
    (∀ cmd ∈ ([0x04, 0x08, 0x0F, 0x80, 0xFF] : List Byte),
      cmd ∉ ([0x00, 0x01, 0x05, 0x02, 0x06, 0x03, 0x07] : List Byte)) ∧
    ((at_ 7).issue (bytesRequest 0x08 [])).seeded = true ∧
    ((at_ 7).issue (bytesRequest 0x08 [])).inbox = .command (Request.mk 0x08 [] (Params.mk 0 0 0 0 0 [] [])) :: [] := by
  decide

theorem test_meets_EncodedInstructionDecodesBack :
    WellFormed (.encodeTcp (record 0x0F 2 0 [true, false] [7])) ∧ WellFormed (.fcUnknown 0xFF (.validate .tcp 0 ⟨1, 2, 3, [], []⟩)) ∧
    WellFormed (.fc10WriteMultipleRegisters (.decode (.tcp 0xFFFF 1 0 255) [0xFF])) ∧
    (Instr.encodeTcp (record 0x0F 2 0 [true, false] [7])).isCommand = true ∧
    (Instr.fcUnknown 0xFF (.validate .tcp 0 ⟨1, 2, 3, [], []⟩)).isCommand = false := by decide

theorem test_meets_DecodedCommandHasItsDescriptor : decode (bytesRequest 0x07 [1]) = .ok (.decodeTcp [1]) := by decide

theorem test_meets_StepRunsDecodedCommand :
    ((at_ 7).issue (bytesRequest 0x00 [1])).seeded = true ∧
    ((at_ 7).issue (bytesRequest 0x00 [1])).inbox = .command (bytesRequest 0x00 [1]) :: [] ∧
    decode (bytesRequest 0x00 [1]) = .ok (.crc16 [1]) := by decide

/-- For a record's row and for a frame's. -/
theorem test_meets_StepRunsFunctionCodeRow :
    ((at_ 7).issue (Request.mk 0x06 [] (record 0x06 0 3 [] []))).seeded = true ∧
    ((at_ 7).issue (Request.mk 0x06 [] (record 0x06 0 3 [] []))).inbox = .command (Request.mk 0x06 [] (record 0x06 0 3 [] [])) :: [] ∧
    accepted (Request.mk 0x06 [] (record 0x06 0 3 [] [])) = true ∧
    decodeFc (Request.mk 0x06 [] (record 0x06 0 3 [] [])) =
      some (.fc06WriteSingleRegister (.encode .tcp 0x11 ⟨0xFFFF, 3⟩)) ∧
    accepted (bytesRequest 0x03 [1, 0x83, 2, 0]) = true ∧
    decodeFc (bytesRequest 0x03 [1, 0x83, 2, 0]) = some (.fcUnknown 0x83 (.decode (.rtu 1 2 0) [])) := by decide

/-- Each side of each capacity, at the boundary. -/
theorem test_meets_OverlongOperandIsRefused :
    Config.seqCap < (List.replicate (Config.seqCap + 1) (0 : Byte)).length ∧
    (List.replicate Config.seqCap (0 : Byte)).length ≤ Config.seqCap ∧
    Config.listCap < (record 0x0F 1 0 (List.replicate (Config.listCap + 1) true) []).coils.length ∧
    Config.listCap < (record 0x10 1 0 [] (List.replicate (Config.listCap + 1) 7)).regs.length ∧
    (record 0x0F 1 0 (List.replicate Config.listCap true) []).coils.length ≤ Config.listCap ∧
    (record 0x0F 1 0 (List.replicate Config.listCap true) []).regs.length ≤ Config.listCap := by
  simp [record]

theorem test_meets_OverlongRowOperandIsRefused :
    Config.listCap < (List.replicate (Config.listCap + 1) true).length ∧
    Config.listCap < (List.replicate (Config.listCap + 1) (7 : U16)).length ∧
    (Config.listCap < (List.replicate (Config.listCap + 1) true).length ∨ Config.listCap < ([] : List U16).length) ∧
    (Config.listCap < ([] : List Bool).length ∨ Config.listCap < (List.replicate (Config.listCap + 1) (7 : U16)).length) ∧
    Config.seqCap < ((FrameShell.rtu 1 0 0).frame 0x83 (List.replicate Config.seqCap 0)).length ∧
    Config.seqCap < ((FrameShell.tcp 1 0 6 1).frame 0x01 (List.replicate Config.seqCap 0)).length := by
  simp [FrameShell.frame, be16Bytes]
  omega

theorem test_meets_IdleWaitsAndUnseededIsStuck :
    (at_ 7).inbox = [] ∧ (State.mk 0 false 1 [.command (bytesRequest 0x00 [])] []).seeded = false ∧
    (State.mk 0 false 1 [.command (bytesRequest 0x00 [])] []).inbox = .command (bytesRequest 0x00 []) :: [] := by decide

theorem test_meets_ResetSeedsTid : (State.mk 0 false 3 [.reset, .reset] []).inbox = .reset :: [.reset] := by decide

/-- Two states that differ in TID alone. -/
theorem test_meets_PowerLossForgetsTid :
    (State.mk 7 true 3 [.powerLoss, .reset] []).inbox = .powerLoss :: .reset :: [] ∧
    State.mk 9 true 3 [.powerLoss, .reset] [] =
      { State.mk 7 true 3 [.powerLoss, .reset] [] with tid := (State.mk 9 true 3 [.powerLoss, .reset] []).tid } := by decide

/-- At the wrap: the TID 0xFFFF, and a successful TCP encode. -/
theorem test_meets_StepKeepsTidLegal :
    State.TidLegal ((at_ 0xFFFF).issue (Request.mk 0x06 [] (record 0x06 0 3 [] []))) ∧
    step ((at_ 0xFFFF).issue (Request.mk 0x06 [] (record 0x06 0 3 [] []))) =
      .next ((at_ 1).finish (.ok (.adu [0xFF, 0xFF, 0, 0, 0, 6, 0x11, 0x06, 0xFF, 0xFF, 0, 3]))) := by
  refine ⟨by decide, by rfl⟩

/-- Both clauses of the successor, and ids at both ends of the range. -/
theorem test_meets_TidRunsThroughEveryId :
    (0xFFFF : U16) = 0xFFFF ∧ (0xFFFE : U16) ≠ 0xFFFF ∧ (1 : U16) ≠ 0 ∧ (0xFFFF : U16) ≠ 0 ∧
    tidSucc^[2] (0xFFFF : U16) = tidSucc^[1 + 1] 0xFFFF ∧ tidSucc (0xFFFF : U16) ≠ 0 := by decide

/-- A step that keeps TID, a reset, and a TCP encode that ends OK. -/
theorem test_meets_OnlyResetAndTcpEncodeWriteTid :
    step ((at_ 7).issue (bytesRequest 0x03 [])) = .next ((at_ 7).finish (.raised .incompleteHeader)) ∧
    ((at_ 7).finish (.raised .incompleteHeader)).seeded = true ∧
    step (State.mk 7 true 1 [.reset] []) = .next ((at_ 7).seedTid) ∧ (at_ 7).seedTid.seeded = true ∧
    step ((at_ 7).issue (Request.mk 0x06 [] (record 0x06 0 3 [] []))) =
      .next ((at_ 8).finish (.ok (.adu [0, 7, 0, 0, 0, 6, 0x11, 0x06, 0xFF, 0xFF, 0, 3]))) := by
  refine ⟨by rfl, by rfl, by rfl, by rfl, by rfl⟩

/-- One instruction for each clause. -/
theorem test_meets_TidAccessByCommand :
    exec (.decodeRtu []) (at_ 7) = .next ((at_ 7).finish (.raised .incompleteHeader)) ∧
    isTcpEncode (.decodeRtu []) = false ∧
    ((at_ 7).finish (.raised .incompleteHeader)).outbox = (at_ 7).outbox ++ [.raised .incompleteHeader] ∧
    exec (.fc06WriteSingleRegister (.encode .tcp 0x11 ⟨0xFFFF, 3⟩)) (at_ 7) =
      .next ((at_ 8).finish (.ok (.adu [0, 7, 0, 0, 0, 6, 0x11, 0x06, 0xFF, 0xFF, 0, 3]))) ∧
    isTcpEncode (.fc06WriteSingleRegister (.encode .tcp 0x11 ⟨0xFFFF, 3⟩)) = true ∧
    ((at_ 8).finish (.ok (.adu [0, 7, 0, 0, 0, 6, 0x11, 0x06, 0xFF, 0xFF, 0, 3]))).outbox =
      (at_ 7).outbox ++ [.ok (.adu [0, 7, 0, 0, 0, 6, 0x11, 0x06, 0xFF, 0xFF, 0, 3])] := by
  refine ⟨by rfl, by rfl, by rfl, by rfl, by rfl, by rfl⟩

theorem test_meets_CommandChangesOnlyTidAndResult :
    exec (.crc16 []) (at_ 7) = .next ((at_ 7).finish (.ok (.crc 0xFFFF))) := by rfl

theorem test_meets_RaisedStatusLeavesStateAlone :
    exec (.encodeTcp (record 0x07 0 0 [] [])) (at_ 7) = .next ((at_ 7).finish (.raised .unsupportedFc)) ∧
    ((at_ 7).finish (.raised .unsupportedFc)).outbox = (at_ 7).outbox ++ [.raised .unsupportedFc] := by
  refine ⟨by rfl, by rfl⟩

theorem test_meets_ResultDependsOnOperandsAlone :
    isTcpEncode (.encodeRtu (record 0x06 0 3 [] [])) = false ∧
    isTcpEncode (.fc06WriteSingleRegister (.encode .rtu 1 ⟨0, 3⟩)) = false := by decide

/-- A queue of a TCP encode that draws an id and one that does not, with a decode between; its first and last command. -/
theorem test_meets_QueueRunsToItsEnd :
    let rs : List Request := [Request.mk 0x06 [] (record 0x06 0 3 [] []), bytesRequest 0x03 [1], Request.mk 0x06 [] (record 0x07 0 0 [] [])]
    (State.mk 7 true 1 (rs.map .command) []).seeded = true ∧ (State.mk 7 true 1 (rs.map .command) []).inbox = rs.map .command ∧
    (∀ r ∈ rs, accepted r = true) ∧ (rs.filter drawsTid).length = 1 ∧
    rs[0]? = some (Request.mk 0x06 [] (record 0x06 0 3 [] [])) ∧ rs[2]? = some (Request.mk 0x06 [] (record 0x07 0 0 [] [])) := by
  decide

theorem test_meets_Crc16ReturnsTheRegister :
    (List.replicate Config.seqCap (0 : Byte)).length ≤ Config.seqCap ∧
    Config.seqCap < (List.replicate (Config.seqCap + 1) (0 : Byte)).length := by simp

/-- Two bytes that differ in one bit. -/
theorem test_meets_CrcSeesEveryTwoByteBurst : ((0x01, 0x02) : Byte × Byte) ≠ (0x01, 0x03) := by decide

/-- Both codes of rule R131; quantities at both ends of its range and beyond. -/
theorem test_meets_ValidateReadBits :
    (∀ q ∈ ([0, 1, 2000, 2001] : List U16), Fits (record 0x01 q 0 [] []) ∧ Fits (record 0x02 q 0 [] [])) ∧
    (record 0x01 1 0 [] []).fc = 0x01 ∧ (record 0x02 2000 0 [] []).fc = 0x02 :=
  ⟨fun _ _ => ⟨fits_small (by simp [record]), fits_small (by simp [record])⟩, by decide, by decide⟩

theorem test_meets_ValidateReadRegisters :
    (∀ q ∈ ([0, 1, 125, 126] : List U16), Fits (record 0x03 q 0 [] []) ∧ Fits (record 0x04 q 0 [] [])) ∧
    (record 0x03 1 0 [] []).fc = 0x03 ∧ (record 0x04 126 0 [] []).fc = 0x04 :=
  ⟨fun _ _ => ⟨fits_small (by simp [record]), fits_small (by simp [record])⟩, by decide, by decide⟩

theorem test_meets_ValidateSingleWrites :
    (∀ v ∈ ([0x0000, 0x0001, 0xFEFF, 0xFF00, 0xFF01] : List U16), Fits (record 0x05 0 v [] []) ∧ Fits (record 0x06 0 v [] [])) ∧
    (record 0x05 0 0xFF00 [] []).fc = 0x05 ∧ (record 0x06 0 0xFFFF [] []).fc = 0x06 :=
  ⟨fun _ _ => ⟨fits_small (by simp [record]), fits_small (by simp [record])⟩, by decide, by decide⟩

/-- Quantity 0 and one beyond the range; lists that match the quantity and lists that do not. -/
theorem test_meets_ValidateMultipleWrites :
    Fits (record 0x0F 0 0 [true] []) ∧
    Fits (record 0x0F 1969 0 (List.replicate 1969 true) (List.replicate 0 7)) ∧
    Fits (record 0x10 124 0 (List.replicate 0 true) (List.replicate 124 7)) ∧
    (record 0x0F 0 0 [true] []).fc = 0x0F ∧ (record 0x10 124 0 [] []).fc = 0x10 :=
  ⟨fits_small (by decide), fits_replicate _ _ (by decide) (by decide), fits_replicate _ _ (by decide) (by decide), rfl, rfl⟩

theorem test_meets_UnsupportedCodeIsReported :
    ∀ fc ∈ ([0x00, 0x07, 0x0E, 0x11, 0x83, 0xFF] : List Byte), Fits (record fc 1 0 [] []) ∧ (record fc 1 0 [] []).fc ∉ supportedCodes :=
  fun fc h => ⟨fits_small (by simp [record]), by revert fc; decide⟩

/-- A valid and an invalid record, at the bounds. -/
theorem test_meets_ValidatePassesExactlyTheTable :
    Fits (record 0x01 2000 0 [] []) ∧ Valid (record 0x01 2000 0 [] []) ∧ Fits (record 0x01 2001 0 [] []) ∧
    ¬ Valid (record 0x01 2001 0 [] []) ∧ ¬ Valid (record 0x07 1 0 [] []) :=
  ⟨fits_small (by decide), by decide, fits_small (by decide), by decide, by decide⟩

/-- Records that differ in every field their code does not use. -/
theorem test_meets_UnusedFieldsAreIgnored :
    Fits (record 0x05 1 0xFF00 [true] [7]) ∧ Fits (record 0x05 2 0xFF00 [] [8]) ∧
    SameUsedFields (record 0x05 1 0xFF00 [true] [7]) (record 0x05 2 0xFF00 [] [8]) ∧
    record 0x05 1 0xFF00 [true] [7] ≠ record 0x05 2 0xFF00 [] [8] :=
  ⟨fits_small (by decide), fits_small (by decide), by decide, by decide⟩

theorem test_meets_MaskHasOnlyFieldBits :
    exec (.encodeRtu (record 0x0F 0 0 [true] [])) (at_ 7) = .next ((at_ 7).finish (.raised (.paramInvalid 0x14))) ∧
    ((at_ 7).finish (.raised (.paramInvalid 0x14))).outbox = (at_ 7).outbox ++ [.raised (.paramInvalid 0x14)] := by
  refine ⟨by rfl, by rfl⟩

theorem test_meets_EncodeRepeatsValidation : Fits (record 0x10 1 0 [] [7]) := fits_small (by decide)

/-- A valid record of each of the six codes, at a bound. -/
theorem test_meets_EncodeRtuFixedShapes :
    ∀ p ∈ [record 0x01 2000 0 [] [], record 0x02 1 0 [] [], record 0x03 125 0 [] [], record 0x04 1 0 [] [],
        record 0x05 0 0xFF00 [] [], record 0x06 0 0xFFFF [] []],
      Fits p ∧ Valid p ∧ p.fc ≠ 0x0F ∧ p.fc ≠ 0x10 :=
  fun p h => ⟨fits_small (by revert p; decide), by revert p; decide⟩

theorem test_meets_EncodeTcpFixedShapes :
    Fits (record 0x05 0 0x0000 [] []) ∧ Valid (record 0x05 0 0x0000 [] []) ∧
    (record 0x05 0 0x0000 [] []).fc ≠ 0x0F ∧ (record 0x05 0 0x0000 [] []).fc ≠ 0x10 :=
  ⟨fits_small (by decide), by decide⟩

/-- The smallest and the largest list. -/
theorem test_meets_EncodeMultipleCoils :
    ∀ n ∈ ([1, 8, 9, 1968] : List Nat),
      Fits (record 0x0F (BitVec.ofNat 16 n) 0 (List.replicate n true) (List.replicate 0 7)) ∧
      Valid (record 0x0F (BitVec.ofNat 16 n) 0 (List.replicate n true) (List.replicate 0 7)) := by
  intro n h
  have hn : 1 ≤ n ∧ n ≤ 1968 := by revert n; decide
  exact ⟨fits_replicate _ _ (by omega) (by decide), valid_coils hn⟩

theorem test_meets_EncodeMultipleRegisters :
    ∀ n ∈ ([1, 123] : List Nat),
      Fits (record 0x10 (BitVec.ofNat 16 n) 0 (List.replicate 0 true) (List.replicate n 7)) ∧
      Valid (record 0x10 (BitVec.ofNat 16 n) 0 (List.replicate 0 true) (List.replicate n 7)) := by
  intro n h
  have hn : 1 ≤ n ∧ n ≤ 123 := by revert n; decide
  exact ⟨fits_replicate _ _ (by decide) (by omega), valid_regs hn⟩

/-- The bounds of each clause. -/
theorem test_meets_FixedShapeRowsEncode :
    (1 ≤ (1 : U16).toNat ∧ (1 : U16).toNat ≤ 125) ∧ (1 ≤ (125 : U16).toNat ∧ (125 : U16).toNat ≤ 125) ∧
    (1 ≤ (2000 : U16).toNat ∧ (2000 : U16).toNat ≤ 2000) ∧
    ((0xFF00 : U16) = 0xFF00 ∨ (0xFF00 : U16) = 0x0000) := by decide

theorem test_meets_FixedShapeRowsEncodeTcp :
    (1 ≤ (1 : U16).toNat ∧ (1 : U16).toNat ≤ 125) ∧ (1 ≤ (125 : U16).toNat ∧ (125 : U16).toNat ≤ 125) ∧
    (1 ≤ (2000 : U16).toNat ∧ (2000 : U16).toNat ≤ 2000) ∧
    ((0x0000 : U16) = 0xFF00 ∨ (0x0000 : U16) = 0x0000) := by decide

theorem test_meets_CountedShapeRowsEncode :
    (1 ≤ (1968 : U16).toNat ∧ (1968 : U16).toNat ≤ 1968 ∧ (List.replicate 1968 true).length = (1968 : U16).toNat) ∧
    (1 ≤ (123 : U16).toNat ∧ (123 : U16).toNat ≤ 123 ∧ (List.replicate 123 (7 : U16)).length = (123 : U16).toNat) :=
  ⟨⟨by decide, by decide, List.length_replicate⟩, by decide, by decide, List.length_replicate⟩

theorem test_meets_ConsecutiveTcpEncodesDifferOnlyInId :
    Fits (record 0x10 1 0 [] [7]) ∧ Valid (record 0x10 1 0 [] [7]) := ⟨fits_small (by decide), by decide⟩

theorem test_meets_EncodedRtuFramePassesCheck :
    Fits (record 0x0F 1 0 [true] []) ∧ Valid (record 0x0F 1 0 [true] []) := ⟨fits_small (by decide), by decide⟩

/-- Each mode's clause, with the longest frame of rule R78. -/
theorem test_meets_EncodedFrameLength :
    Fits (record 0x10 123 0 (List.replicate 0 true) (List.replicate 123 7)) ∧
    Valid (record 0x10 123 0 (List.replicate 0 true) (List.replicate 123 7)) ∧ Mode.rtu = .rtu ∧ Mode.tcp = .tcp :=
  ⟨fits_replicate _ _ (by decide) (by decide), valid_regs (n := 123) (by decide), rfl, rfl⟩

/-- Lengths 0 to 4, and frames whose shape just fits and just does not; no length is under two clauses. -/
theorem test_meets_DecodeRtuStatus :
    (∀ n ≤ 10, (List.replicate n (0 : Byte)).length ≤ Config.seqCap) ∧
    shapeFits 0x01 (7 - 4) 0 = false ∧ shapeFits 0x01 (8 - 4) 0 = true ∧
    shapeFits 0x0F (10 - 4) 2 = false ∧ shapeFits 0x0F (11 - 4) 2 = true ∧ shapeFits 0x83 (4 - 4) 0 = true :=
  ⟨fun n h => seq_small (by simp; omega), by decide⟩

theorem test_meets_DecodeTcpStatus :
    (∀ n ≤ 15, (List.replicate n (0 : Byte)).length ≤ Config.seqCap) ∧
    shapeFits 0x06 (11 - 8) 0 = false ∧ shapeFits 0x06 (12 - 8) 0 = true ∧
    shapeFits 0x10 (14 - 8) 2 = false ∧ shapeFits 0x10 (15 - 8) 2 = true ∧ shapeFits 0xFF (8 - 8) 0 = true :=
  ⟨fun n h => seq_small (by simp; omega), by decide⟩

/-- With no byte after the shape, and with some. -/
theorem test_meets_DecodeRtuFixedShapes :
    (0x05 : Byte) ∈ ([0x01, 0x02, 0x03, 0x04, 0x05, 0x06] : List Byte) ∧ ([] : List Byte).length + 8 ≤ Config.seqCap ∧
    (List.replicate 251 (0 : Byte)).length + 8 ≤ Config.seqCap :=
  ⟨by decide, seq_small (by decide), seq_small (by rw [List.length_replicate])⟩

theorem test_meets_DecodeTcpFixedShapes :
    (0x01 : Byte) ∈ ([0x01, 0x02, 0x03, 0x04, 0x05, 0x06] : List Byte) ∧ ([] : List Byte).length + 12 ≤ Config.seqCap ∧
    (List.replicate 247 (0 : Byte)).length + 12 ≤ Config.seqCap :=
  ⟨by decide, seq_small (by decide), seq_small (by rw [List.length_replicate])⟩

/-- In each mode, an odd byte count and the count 0. -/
theorem test_meets_DecodeCountedShapes :
    ((0x10 : Byte) = 0x0F ∨ (0x10 : Byte) = 0x10) ∧ ([1, 2, 3] : List Byte).length = (3 : Byte).toNat ∧
    ([] : List Byte).length = (0 : Byte).toNat ∧
    ((FrameShell.rtu 1 0 0).frame 0x10 ([0, 1, 0, 2, 3] ++ [1, 2, 3] ++ [])).length ≤ Config.seqCap ∧
    ((FrameShell.tcp 1 0 6 1).frame 0x0F ([0, 1, 0, 2, 0] ++ [] ++ [9])).length ≤ Config.seqCap :=
  ⟨by decide, by decide, by decide, seq_small (by decide), seq_small (by decide)⟩

theorem test_meets_DecodeUnknownCodeIsOpaque :
    (0x00 : Byte) ∉ supportedCodes ∧ (0xFF : Byte) ∉ supportedCodes ∧ ([] : List Byte).length + 8 ≤ Config.seqCap ∧
    ([1, 2, 3] : List Byte).length + 8 ≤ Config.seqCap :=
  ⟨by decide, by decide, seq_small (by decide), seq_small (by decide)⟩

/-- In each shell: a PDU that just holds two fields, one with bytes after them, one a byte too short, and an empty one. -/
theorem test_meets_RowsDecodeTheirFrames :
    (∀ sh : FrameShell, ∀ n ≤ 251, sh.overhead + (List.replicate n (0 : Byte)).length ≤ Config.seqCap) ∧
    ([0, 1, 0, 2] : List Byte) = [0, 1, 0, 2] ++ [] ∧ ([0, 1, 0, 2, 9] : List Byte) = [0, 1, 0, 2] ++ [9] ∧
    ([0, 1, 0] : List Byte).length < 4 ∧ ([] : List Byte).length < 4 ∧
    (∀ fc ∈ ([0x00, 0x07, 0x0E, 0x11, 0x83, 0xFF] : List Byte), fc ∉ supportedCodes) :=
  ⟨fun sh n h => seq_small (by rw [List.length_replicate]; cases sh <;> simp only [FrameShell.overhead] <;> omega), by decide⟩

/-- V-DEC-24. -/
theorem test_meets_DecodeDoesNotVerifyCrc :
    ([0x01, 0x2B] : List Byte).length + 2 ≤ Config.seqCap ∧
    exec (.decodeRtu ([0x01, 0x2B] ++ [0x00, 0x00])) (at_ 7) = .next { at_ 7 with outbox := (at_ 7).outbox ++
      [.ok (.segments [⟨.slaveID, 0, 1, some 1⟩, ⟨.func, 1, 1, some 0x2B⟩, ⟨.crc, 2, 2, some 0⟩])] } :=
  ⟨seq_small (by decide), by rfl⟩

/-- V-DEC-14. -/
theorem test_meets_SegmentsPartitionTheFrame :
    exec (decodeOf .tcp [0x00, 0x01, 0x00, 0x00, 0x00, 0x02, 0x01, 0x83]) (at_ 7) =
      .next { at_ 7 with outbox := (at_ 7).outbox ++ [.ok (.segments [⟨.transID, 0, 2, some 1⟩, ⟨.protoID, 2, 2, some 0⟩,
        ⟨.length, 4, 2, some 2⟩, ⟨.unitID, 6, 1, some 1⟩, ⟨.func, 7, 1, some 0x83⟩])] } := by rfl

/-- V-DEC-15: one segment under each clause, and their kinds. -/
theorem test_meets_SegmentValuesComeFromTheFrame :
    exec (decodeOf .rtu [0x01, 0x83, 0x02, 0xC0, 0xF1]) (at_ 7) =
      .next { at_ 7 with outbox := (at_ 7).outbox ++ [.ok (.segments [⟨.slaveID, 0, 1, some 1⟩, ⟨.func, 1, 1, some 0x83⟩,
        ⟨.data, 2, 1, none⟩, ⟨.crc, 3, 2, some 0xF1C0⟩])] } ∧
    Kind.width .slaveID = some 1 ∧ Kind.slaveID ≠ .data ∧ Kind.slaveID ≠ .crc ∧ Kind.width .addr = some 2 :=
  ⟨by rfl, by decide⟩

/-- A record of each shape; the clause on coils has a coil to speak of. -/
theorem test_meets_RoundTripRtu :
    (∀ p ∈ [record 0x01 2000 0 [] [], record 0x06 0 7 [] [], record 0x0F 9 0 [true, false, true, true, false, true, true, true, true] [],
        record 0x10 2 0 [] [7, 0xFFFF]], Fits p ∧ Valid p) ∧
    8 < (record 0x0F 9 0 [] []).qty.toNat :=
  ⟨fun p h => ⟨fits_small (by revert p; decide), by revert p; decide⟩, by decide⟩

theorem test_meets_RoundTripTcp :
    (∀ p ∈ [record 0x04 125 0 [] [], record 0x05 0 0xFF00 [] [], record 0x0F 1 0 [true] [], record 0x10 1 0 [] [7]],
      Fits p ∧ Valid p) ∧ 0 < (record 0x0F 1 0 [] []).qty.toNat :=
  ⟨fun p h => ⟨fits_small (by revert p; decide), by revert p; decide⟩, by decide⟩

/-- The bounds of the two ranges. -/
theorem test_meets_HighLowSplitClamps :
    ((0 : Int) ≤ 0 ∧ (0 : Int) ≤ 65535) ∧ ((0 : Int) ≤ 65535 ∧ (65535 : Int) ≤ 65535) ∧
    ((-1 : Int) < 0 ∨ 65535 < (-1 : Int)) ∧ ((65536 : Int) < 0 ∨ 65535 < (65536 : Int)) := by decide

theorem test_meets_InvalidTextIssuesNoCommand :
    parseHexText ['G'] = none ∧ parseHexText ['0', '4', ' ', '7'] = some [0x04, 0x07] := by decide

/-- A record of numbers that all fit, at the greatest value of each kind of field; records with one number too many in the
unit id, in a coil and in a register; the edges of the clamp. -/
theorem test_meets_UserNumbersAreConvertedOrRejected :
    let fits : Nat → HostNumber → Prop := fun most v => ∃ n : Nat, n ≤ most ∧ v = .int n
    let allFit : UserParams → Prop := fun u => fits 255 u.unit ∧ fits 255 u.fc ∧ fits 65535 u.addr ∧ fits 65535 u.qty ∧
      fits 65535 u.value ∧ (∀ v ∈ u.coils, fits 1 v) ∧ ∀ v ∈ u.regs, fits 65535 v
    allFit { unit := .int 255, fc := .int 0x0F, addr := .int 65535, qty := .int 2, coils := [.int 1, .int 0], regs := [.int 65535] } ∧
    ¬ allFit { unit := .int 256 } ∧ ¬ allFit { coils := [.int 2] } ∧ ¬ allFit { regs := [.int (-1)] } ∧
    ((-1 : Int) < 0 ∨ 65535 < (-1 : Int)) ∧ ((65536 : Int) < 0 ∨ 65535 < (65536 : Int)) := by
  refine ⟨⟨⟨255, by decide, rfl⟩, ⟨15, by decide, rfl⟩, ⟨65535, by decide, rfl⟩, ⟨2, by decide, rfl⟩, ⟨0, by decide, rfl⟩,
    ?_, ?_⟩, ?_, ?_, ?_, by decide, by decide⟩
  · intro v hv
    simp only [List.mem_cons, List.not_mem_nil, or_false] at hv
    rcases hv with rfl | rfl
    · exact ⟨1, by decide, rfl⟩
    · exact ⟨0, by decide, rfl⟩
  · intro v hv
    exact ⟨65535, by decide, by simpa using hv⟩
  · rintro ⟨⟨n, hn, h⟩, -⟩
    simp at h; omega
  · rintro ⟨-, -, -, -, -, h, -⟩
    obtain ⟨n, hn, h⟩ := h (.int 2) (by simp)
    simp at h; omega
  · rintro ⟨-, -, -, -, -, -, h⟩
    obtain ⟨n, hn, h⟩ := h (.int (-1)) (by simp)
    simp at h

end Sys2Proof.Tests
end

section
/-! Which commands read and write TID (rule R23). A command that is not a TCP encode is a fixed result appended to the
state it starts in, whatever that state is; the inversion lemma `exec_next` says the rest. -/

namespace Sys2Proof.Machine

/-- The body of a command returns one result, the same from every state, and does nothing else (rule R31). -/
def ReturnsFixed (body : State → State) : Prop :=
  ∃ r, ∀ s, body s = s.finish r

/-- A command looks at its operands alone: it returns one fixed result from every state, or is refused in every state
for an operand that is too long (rules R31, R42). -/
def StateBlind (command : State → Host.Outcome State Fault Refusal) : Prop :=
  (∃ r, ∀ s, command s = .next (s.finish r)) ∨ (∀ s, command s = .refused .operandTooLong)

theorem raise_returnsFixed (e : Raise) : ReturnsFixed fun s => s.raise e :=
  ⟨.raised e, raise_eq_finish e⟩

theorem finishExcept_returnsFixed (x : Except Raise Value) : ReturnsFixed fun s => s.finishExcept x := by
  cases x with
  | error e => exact raise_returnsFixed e
  | ok v => exact ⟨.ok v, fun s => finishExcept_ok v s⟩

theorem validateMask_returnsFixed (mask : Byte) : ReturnsFixed (validateMask mask) := by
  by_cases h : mask = 0
  · subst h
    exact ⟨_, validateMask_zero⟩
  · exact ⟨_, validateMask_ne h⟩

theorem encodeMask_rtu_returnsFixed (unit mask : Byte) (pdu : List Byte) :
    ReturnsFixed (encodeMask .rtu unit mask pdu) := by
  by_cases h : mask = 0
  · subst h
    exact ⟨_, encodeMask_zero_rtu unit pdu⟩
  · exact ⟨_, encodeMask_ne h .rtu unit pdu⟩

theorem validateParams_returnsFixed (p : Params) : ReturnsFixed (validateParams p) := by
  unfold validateParams
  cases FnCode.ofByte p.fc with
  | none => exact raise_returnsFixed _
  | some f => exact validateMask_returnsFixed _

theorem encodeParams_rtu_returnsFixed (p : Params) : ReturnsFixed (encodeParams .rtu p) := by
  unfold encodeParams
  cases FnCode.ofByte p.fc with
  | none => exact raise_returnsFixed _
  | some f => exact encodeMask_rtu_returnsFixed _ _ _

/-- The port's acceptance looks at the operands alone, so it keeps a fixed result fixed. -/
theorem ReturnsFixed.stateBlind_perform {body : State → State} (h : ReturnsFixed body) (fits : Bool) :
    StateBlind fun s => perform fits (body s) := by
  obtain ⟨r, hr⟩ := h
  cases fits with
  | false => exact Or.inr fun s => perform_of_not_fits rfl
  | true => exact Or.inl ⟨r, fun s => (perform_of_fits rfl).trans (congrArg _ (hr s))⟩

theorem rowUse_stateBlind {α : Type} (fc : Byte) (fits : α → Bool) (check : Byte → α → Byte) (pdu : α → List Byte)
    (shape : Cursor → Except Raise Cursor) {u : PduUse α} (hu : tcpEncodeUse u = false) :
    StateBlind (rowUse fc fits check pdu shape u) := by
  cases u with
  | validate m unit f => exact (validateMask_returnsFixed _).stateBlind_perform _
  | encode m unit f =>
    cases m with
    | rtu => exact (encodeMask_rtu_returnsFixed _ _ _).stateBlind_perform _
    | tcp => cases hu
  | decode sh body => exact (finishExcept_returnsFixed _).stateBlind_perform _

theorem execFcUnknown_stateBlind (fc : Byte) {u : PduUse RecordFields} (hu : tcpEncodeUse u = false) :
    StateBlind (execFcUnknown fc u) := by
  cases u with
  | validate m unit f => exact (validateParams_returnsFixed _).stateBlind_perform _
  | encode m unit f =>
    cases m with
    | rtu => exact (encodeParams_rtu_returnsFixed _).stateBlind_perform _
    | tcp => cases hu
  | decode sh body => exact (finishExcept_returnsFixed _).stateBlind_perform _

/-- Rules R23, R31: every instruction but an ENCODE in mode TCP looks at its operands alone. -/
theorem exec_stateBlind {i : Instr} (hi : isTcpEncode i = false) : StateBlind (exec i) := by
  cases i with
  | crc16 data => exact ReturnsFixed.stateBlind_perform ⟨_, fun _ => rfl⟩ _
  | validateRtu p => exact (validateParams_returnsFixed p).stateBlind_perform _
  | validateTcp p => exact (validateParams_returnsFixed p).stateBlind_perform _
  | encodeRtu p => exact (encodeParams_rtu_returnsFixed p).stateBlind_perform _
  | encodeTcp p => cases hi
  | decodeRtu frame => exact (finishExcept_returnsFixed _).stateBlind_perform _
  | decodeTcp frame => exact (finishExcept_returnsFixed _).stateBlind_perform _
  | fc01ReadCoils u => exact rowUse_stateBlind _ _ _ _ _ hi
  | fc02ReadDiscreteInputs u => exact rowUse_stateBlind _ _ _ _ _ hi
  | fc03ReadHoldingRegisters u => exact rowUse_stateBlind _ _ _ _ _ hi
  | fc04ReadInputRegisters u => exact rowUse_stateBlind _ _ _ _ _ hi
  | fc05WriteSingleCoil u => exact rowUse_stateBlind _ _ _ _ _ hi
  | fc06WriteSingleRegister u => exact rowUse_stateBlind _ _ _ _ _ hi
  | fc0FWriteMultipleCoils u => exact rowUse_stateBlind _ _ _ _ _ hi
  | fc10WriteMultipleRegisters u => exact rowUse_stateBlind _ _ _ _ _ hi
  | fcUnknown fc u => exact execFcUnknown_stateBlind fc hi

/-- A command that looks at its operands alone neither reads TID nor changes it. -/
theorem StateBlind.tid_untouched {command : State → Host.Outcome State Fault Refusal} (hc : StateBlind command)
    {s t : State} (h : command s = .next t) :
    t.tid = s.tid ∧ ∀ tid, command { s with tid := tid } = .next { t with tid := tid } := by
  rcases hc with ⟨r, hr⟩ | hrefused
  · obtain rfl : s.finish r = t := by simpa [hr] using h
    exact ⟨finish_tid r s, fun tid => hr _⟩
  · simp [hrefused] at h

/-- A command that returned a raised status left TID alone, an ENCODE in mode TCP among them (rule R220). -/
theorem Ends.tid_of_raised {tcp : Bool} {s t : State} (h : Ends tcp s t) {e : Raise}
    (he : t.outbox = s.outbox ++ [.raised e]) : t.tid = s.tid := by
  rcases h with ⟨r, rfl, -⟩ | ⟨-, adu, rfl⟩
  · exact finish_tid r s
  · simp at he

/-- An ENCODE in mode TCP that returned OK moved TID to its successor (rules R161, R162). -/
theorem Ends.tid_of_ok {s t : State} (h : Ends true s t) {v : Value} (hv : t.outbox = s.outbox ++ [.ok v]) :
    t.tid = tidSucc s.tid := by
  rcases h with ⟨r, rfl, hraised⟩ | ⟨-, adu, rfl⟩
  · obtain ⟨e, rfl⟩ := hraised rfl
    simp at hv
  · rfl

/-- Settles O16: what does not encode for TCP is blind to the state, and `Ends` says how a TCP encode ends. -/
theorem tidAccessByCommand : Obligations.TidAccessByCommand := by
  intro i s t h
  refine ⟨fun hi => (exec_stateBlind hi).tid_untouched h, fun e he => (exec_next h).tid_of_raised he, fun hi v hv => ?_⟩
  have hends : Ends true s t := hi ▸ exec_next h
  exact hends.tid_of_ok hv

end Sys2Proof.Machine
end

section
/-! The port's descriptors (rules R60, R61): the decoder refuses every byte but seven, and the step refuses what the
decoder refuses. -/

namespace Sys2Proof.Machine

/-- Rule R61, the refusing half: a descriptor outside the table is no command. -/
theorem decode_error_of_not_descriptor {r : Request}
    (h : r.cmd ∉ ([0x00, 0x01, 0x05, 0x02, 0x06, 0x03, 0x07] : List Byte)) : ∃ e, decode r = .error e := by
  rcases decode_cases r with hc | hc | hc | hc | hc | hc | hc | ⟨-, he⟩
  iterate 7 exact absurd (by rw [hc.1]; decide) h
  exact he

/-- A seeded block that takes a command with a reserved descriptor performs no step (rules R61, R226). -/
theorem step_refuse {s : State} {r : Request} {rest : List HostEvent} {e : DecodeError}
    (h : s.inbox = .command r :: rest) (hs : s.seeded = true) (hd : decode r = .error e) :
    step s = .refused (.descriptor e) := by
  rw [step, fetch_refuse h hs hd]

/-- Settles O1: the seven descriptors by the decoder's own lemmas, every other byte by its error, which the step passes
on. -/
theorem descriptorSelectsCommand : Obligations.DescriptorSelectsCommand := by
  intro cmd bytes p
  refine ⟨?crc16, ?validateRtu, ?validateTcp, ?encodeRtu, ?encodeTcp, ?decodeRtu, ?decodeTcp, ?refused⟩
  case crc16 => rintro rfl; exact decode_crc16 bytes p
  case validateRtu => rintro rfl; exact decode_validateRtu bytes p
  case validateTcp => rintro rfl; exact decode_validateTcp bytes p
  case encodeRtu => rintro rfl; exact decode_encodeRtu bytes p
  case encodeTcp => rintro rfl; exact decode_encodeTcp bytes p
  case decodeRtu => rintro rfl; exact decode_decodeRtu bytes p
  case decodeTcp => rintro rfl; exact decode_decodeTcp bytes p
  case refused =>
    intro hcmd s rest hs hq
    obtain ⟨e, he⟩ := decode_error_of_not_descriptor (r := Request.mk cmd bytes p) hcmd
    exact ⟨e, step_refuse hq hs he⟩

end Sys2Proof.Machine
end

section
/-! Which fields of a record VALIDATE and ENCODE read (rule R64): the checks and the PDU of a function code are the same
for two records that agree on the fields the code uses, and a command reaches its record through those alone. -/

namespace Sys2Proof.Machine

/-- VALIDATE of a record that fits, in either mode (rule R130). -/
theorem exec_validateOf {p : Params} (h : Fits p) (m : Mode) (s : State) :
    exec (validateOf m p) s = .next (validateParams p s) := by
  cases m <;> exact perform_of_fits ((paramsFit_iff p).mpr h)

/-- ENCODE of a record that fits, in either mode (rule R150). -/
theorem exec_encodeOf {p : Params} (h : Fits p) (m : Mode) (s : State) :
    exec (encodeOf m p) s = .next (encodeParams m p s) := by
  cases m <;> exact perform_of_fits ((paramsFit_iff p).mpr h)

theorem toByte_mem_supportedCodes (f : FnCode) : f.toByte ∈ supportedCodes := by
  cases f <;> decide

/-- The table of rule R64: the checks and the PDU of each function code read only the fields marked for it. -/
theorem SameUsedFields.check_and_pdu_eq {p q : Params} (h : SameUsedFields p q) {f : FnCode} (hf : p.fc = f.toByte) :
    checkParams f p = checkParams f q ∧ pduOf f p = pduOf f q := by
  obtain ⟨-, -, haddr, hqty, hvalue, hcoils, hregs⟩ := h
  rw [hf] at haddr hqty hvalue hcoils hregs
  replace haddr : p.addr = q.addr := haddr (toByte_mem_supportedCodes f)
  cases f with
  | readCoils | readDiscreteInputs | readHoldingRegisters | readInputRegisters =>
    simp [checkParams, pduOf, haddr, hqty (by decide)]
  | writeSingleCoil | writeSingleRegister =>
    simp [checkParams, pduOf, haddr, hvalue (by decide)]
  | writeMultipleCoils =>
    simp [checkParams, pduOf, haddr, hqty (by decide), hcoils rfl]
  | writeMultipleRegisters =>
    simp [checkParams, pduOf, haddr, hqty (by decide), hregs rfl]

theorem SameUsedFields.validateParams_eq {p q : Params} (h : SameUsedFields p q) (s : State) :
    validateParams p s = validateParams q s := by
  obtain ⟨-, hfc, -⟩ := id h
  unfold validateParams
  rw [← hfc]
  cases hf : FnCode.ofByte p.fc with
  | none => rfl
  | some f =>
    obtain ⟨hcheck, -⟩ := h.check_and_pdu_eq (ofByte_some hf)
    exact congrArg (validateMask · s) hcheck

theorem SameUsedFields.encodeParams_eq {p q : Params} (h : SameUsedFields p q) (m : Mode) (s : State) :
    encodeParams m p s = encodeParams m q s := by
  obtain ⟨hunit, hfc, -⟩ := id h
  unfold encodeParams
  rw [← hfc]
  cases hf : FnCode.ofByte p.fc with
  | none => rfl
  | some f =>
    obtain ⟨hcheck, hpdu⟩ := h.check_and_pdu_eq (ofByte_some hf)
    simp only [hunit, hcheck, hpdu]

/-- Settles O31: both commands see a record through its checks and its PDU, which read only the fields used. -/
theorem unusedFieldsAreIgnored : Obligations.UnusedFieldsAreIgnored := by
  intro m p q s hp hq h
  rw [exec_validateOf hp, exec_validateOf hq, exec_encodeOf hp, exec_encodeOf hq]
  exact ⟨congrArg _ (h.validateParams_eq s), congrArg _ (h.encodeParams_eq m s)⟩

end Sys2Proof.Machine
end

section
/-! The length of an encoded frame (rule R78): the PDU's length by function code, and its largest value, which the
quantity checks of rules R135 and R136 give. -/

namespace Sys2Proof.Machine

/-- The PDU length of rule R78, by the function code and the quantity of a record. -/
def pduLength (p : Params) : Nat :=
  if p.fc = 0x0F then 6 + (p.qty.toNat + 7) / 8 else if p.fc = 0x10 then 6 + 2 * p.qty.toNat else 5

/-- `pduLength` is the length of the PDU that ENCODE builds. -/
theorem pduOf_length_eq {p : Params} {f : FnCode} (hf : p.fc = f.toByte) (hc : checkParams f p = 0) :
    (pduOf f p).length = pduLength p := by
  rw [pduOf_length f p hc, pduLength, hf]
  cases f <;> rfl

/-- The longest PDU has 252 bytes: 246 data bytes, of 1968 coils or of 123 registers, after 6 others. -/
theorem pduLength_le {p : Params} (h : Valid p) : pduLength p ≤ 252 := by
  unfold pduLength
  split
  next hfc =>
    have hqty : p.qty.toNat ≤ 1968 := by simp [Valid, hfc] at h; omega
    omega
  next =>
    split
    next hfc =>
      have hqty : p.qty.toNat ≤ 123 := by simp [Valid, hfc] at h; omega
      omega
    next => omega

/-- Settles O43: the frame is the PDU in its wrapping, 3 bytes in mode RTU and 7 in mode TCP. -/
theorem encodedFrameLength : Obligations.EncodedFrameLength := by
  intro m p s hfits hvalid
  obtain ⟨f, hf, hc, hrtu, htcp⟩ := encodeParams_of_valid hvalid
  have hlen : (pduOf f p).length = pduLength p := pduOf_length_eq hf hc
  have hmax : pduLength p ≤ 252 := pduLength_le hvalid
  rw [exec_encodeOf hfits]
  cases m with
  | rtu =>
    refine ⟨_, wrapRtu p.unit (pduOf f p), congrArg _ (hrtu s), rfl, ?_, nofun⟩
    rw [wrapRtu_length, hlen]
    exact fun _ => ⟨rfl, by omega⟩
  | tcp =>
    refine ⟨_, wrapTcp s.tid p.unit (pduOf f p), congrArg _ (htcp s), rfl, nofun, ?_⟩
    rw [wrapTcp_length, hlen]
    exact fun _ => ⟨rfl, by omega⟩

end Sys2Proof.Machine
end

section
/-! The CRC engine and the command CRC16 (rules R100, R101, R103). A register that takes its own low byte only shifts,
so a sequence followed by its own CRC first leaves the high byte in the register, which the next byte cancels. -/

namespace Sys2Proof.Machine

/-- Rule R100: the eight shifts are iterates of one shift. -/
theorem crcShifts_eq_iterate (n : Nat) (r : U16) : crcShifts n r = crcShift^[n] r := by
  induction n generalizing r with
  | zero => rfl
  | succ n ih => exact ih (crcShift r)

/-- Settles O21: a byte step is the eight shifts, as iterates, of the register with the byte XORed in. -/
theorem crcByteStep : Obligations.CrcByteStep :=
  fun r b => crcShifts_eq_iterate 8 (r ^^^ b.setWidth 16)

/-- Rule R101: each byte at the end of a sequence is one step. -/
theorem crc16_concat (a : List Byte) (b : Byte) : crc16 (a ++ [b]) = crcUpdate (crc16 a) b := crc16_append a [b]

/-- Rule R101: CRC16 of a sequence within `IN_CAP` returns its CRC. -/
theorem exec_crc16_of_fits {data : List Byte} (h : data.length ≤ Config.seqCap) (s : State) :
    exec (.crc16 data) s = .next (s.finish (.ok (.crc (crc16 data)))) :=
  perform_of_fits ((seqFits_iff data).mpr h)

/-- Rule R42: CRC16 of a sequence longer than `IN_CAP` is refused. -/
theorem exec_crc16_of_too_long {data : List Byte} (h : Config.seqCap < data.length) (s : State) :
    exec (.crc16 data) s = .refused .operandTooLong :=
  perform_of_not_fits (Bool.eq_false_iff.mpr (mt (seqFits_iff data).mp (Nat.not_le.mpr h)))

/-- Settles O22: the descriptor by the decoder's own lemma, both sides of the capacity by the port's acceptance, the
register by `crc16_concat`; the worked example is computed. -/
theorem crc16ReturnsTheRegister : Obligations.Crc16ReturnsTheRegister := by
  refine ⟨fun data p s => ⟨decode_crc16 data p, ?fits, ?tooLong⟩, crc16_nil, crc16_concat, ?workedExample⟩
  case fits => exact fun h => exec_crc16_of_fits h s
  case tooLong => exact fun h => exec_crc16_of_too_long h s
  case workedExample => decide +kernel

/-- A register with its own low byte XORed in has 0 in its low 8 bits. -/
theorem getLsbD_xor_lo8 (r : U16) {i : Nat} (hi : i < 8) : (r ^^^ (lo8 r).setWidth 16).getLsbD i = false := by
  simp [lo8, hi, show i < 16 by omega]

/-- The high byte is what a register with its own low byte XORed in shifts down to. -/
theorem xor_lo8_shiftRight (r : U16) : (r ^^^ (lo8 r).setWidth 16) >>> 8 = (hi8 r).setWidth 16 := by
  apply BitVec.eq_of_getLsbD_eq
  intro i hi
  by_cases h : i < 8
  · simp [lo8, hi8, h, hi]
  · simp [lo8, hi8, h, hi, BitVec.getLsbD_of_ge r (8 + i) (by omega)]

/-- A register that takes its own low byte is left with its high byte. -/
theorem crcUpdate_lo8 (r : U16) : crcUpdate r (lo8 r) = (hi8 r).setWidth 16 := by
  rw [crcUpdate, crcShifts_of_low_zero 8 _ fun _ => getLsbD_xor_lo8 r, xor_lo8_shiftRight]

/-- A byte alone in the register is cancelled by the same byte. -/
theorem crcUpdate_setWidth_self (b : Byte) : crcUpdate (b.setWidth 16) b = 0 := by
  rw [crcUpdate, BitVec.xor_self]
  rfl

/-- Settles O23: the CRC's low byte leaves its high byte in the register, and that byte then leaves 0. -/
theorem frameCheckIsZero : Obligations.FrameCheckIsZero := by
  intro a
  let r := crc16 a
  calc crc16 (a ++ [lo8 r, hi8 r])
      = crcUpdate (crcUpdate r (lo8 r)) (hi8 r) := crc16_append a _
    _ = crcUpdate ((hi8 r).setWidth 16) (hi8 r) := by rw [crcUpdate_lo8]
    _ = 0 := crcUpdate_setWidth_self _

end Sys2Proof.Machine
end

section
/-! What VALIDATE answers (rules R131 to R136): the mask of the record's checks fixes the result, and the command and
the row of a function code run the same checks. -/

namespace Sys2Proof.Machine

/-- The result of a validation whose mask is known (rule R130). -/
def maskResult (mask : Byte) : Result := if mask = 0 then .ok .valid else .raised (.paramInvalid mask)

theorem validateMask_eq_finish (mask : Byte) (s : State) : validateMask mask s = s.finish (maskResult mask) := by
  unfold validateMask maskResult
  split <;> rfl

/-- A single check answers by whether it passes. -/
theorem maskResult_ite {c : Prop} [Decidable c] {bit : Byte} (hbit : bit ≠ 0) :
    maskResult (if c then 0 else bit) = if c then .ok .valid else .raised (.paramInvalid bit) := by
  by_cases hc : c
  · rw [if_pos hc, if_pos hc]; rfl
  · rw [if_neg hc, if_neg hc]; exact if_neg hbit

/-- The quantity check on its own raises bit QTY (rules R131, R132). -/
theorem maskResult_checkQty (most : Nat) (qty : U16) : maskResult (checkQty most qty) =
    if 1 ≤ qty.toNat ∧ qty.toNat ≤ most then .ok .valid else .raised (.paramInvalid 0x04) := by
  rw [checkQty_eq, maskResult_ite (by decide)]

/-- The coil value check on its own raises bit VALUE (rule R133). -/
theorem maskResult_checkCoilValue (value : U16) : maskResult (checkCoilValue value) =
    if value = 0xFF00 ∨ value = 0x0000 then .ok .valid else .raised (.paramInvalid 0x08) := by
  rw [checkCoilValue_eq, maskResult_ite (by decide)]

/-- VALIDATE as the use of a function code row: operands that fit are checked, and the mask is answered. -/
theorem perform_validateMask {fits : Bool} {mask : Byte} {r : Result} (hfits : fits = true)
    (hr : maskResult mask = r) (s : State) : perform fits (validateMask mask s) = .next (s.finish r) := by
  rw [perform_of_fits hfits, validateMask_eq_finish, hr]

/-- VALIDATE of a record that fits and has a supported code answers what the code's checks say, in either mode. -/
theorem exec_validateOf_of_code {p : Params} {f : FnCode} {r : Result} (hfits : Fits p) (hf : p.fc = f.toByte)
    (hr : maskResult (checkParams f p) = r) (m : Mode) (s : State) :
    exec (validateOf m p) s = .next (s.finish r) := by
  rw [exec_validateOf hfits, validateParams_of_code hf, validateMask_eq_finish, hr]

/-- Settles O25: of the checks of 0x01 and 0x02 only the quantity's can fail. -/
theorem validateReadBits : Obligations.ValidateReadBits := by
  intro m p s r t
  have hr : maskResult (checkQty 2000 p.qty) = r := maskResult_checkQty 2000 p.qty
  have h01 : maskResult (checkFc01 p.unit p.addr p.qty) = r := by rw [checkFc01_eq, hr]
  have h02 : maskResult (checkFc02 p.unit p.addr p.qty) = r := by rw [checkFc02_eq, hr]
  refine ⟨?command, perform_validateMask rfl h01 s, perform_validateMask rfl h02 s⟩
  case command =>
    rintro hfits (hfc | hfc)
    · exact exec_validateOf_of_code (f := .readCoils) hfits hfc h01 m s
    · exact exec_validateOf_of_code (f := .readDiscreteInputs) hfits hfc h02 m s

/-- Settles O26: of the checks of 0x03 and 0x04 only the quantity's can fail. -/
theorem validateReadRegisters : Obligations.ValidateReadRegisters := by
  intro m p s r t
  have hr : maskResult (checkQty 125 p.qty) = r := maskResult_checkQty 125 p.qty
  have h03 : maskResult (checkFc03 p.unit p.addr p.qty) = r := by rw [checkFc03_eq, hr]
  have h04 : maskResult (checkFc04 p.unit p.addr p.qty) = r := by rw [checkFc04_eq, hr]
  refine ⟨?command, perform_validateMask rfl h03 s, perform_validateMask rfl h04 s⟩
  case command =>
    rintro hfits (hfc | hfc)
    · exact exec_validateOf_of_code (f := .readHoldingRegisters) hfits hfc h03 m s
    · exact exec_validateOf_of_code (f := .readInputRegisters) hfits hfc h04 m s

/-- Settles O27: of the checks of 0x05 only the value's can fail, of those of 0x06 none. -/
theorem validateSingleWrites : Obligations.ValidateSingleWrites := by
  intro m p s r t ok
  have h05 : maskResult (checkFc05 p.unit p.addr p.value) = r := by
    rw [checkFc05_eq]; exact maskResult_checkCoilValue p.value
  have h06 : maskResult (checkFc06 p.unit p.addr p.value) = .ok .valid := by rw [checkFc06_eq]; rfl
  refine ⟨?command05, perform_validateMask rfl h05 s, ?command06, perform_validateMask rfl h06 s⟩
  case command05 => exact fun hfits hfc => exec_validateOf_of_code (f := .writeSingleCoil) hfits hfc h05 m s
  case command06 => exact fun hfits hfc => exec_validateOf_of_code (f := .writeSingleRegister) hfits hfc h06 m s

/-- Settles O28: the mask of 0x0F and of 0x10 is the OR of the quantity's bit and the list's. -/
theorem validateMultipleWrites : Obligations.ValidateMultipleWrites := by
  intro m p s answer coilMask regMask hfits
  have hcoils : checkFc0F p.unit p.addr p.qty p.coils = coilMask := by rw [checkFc0F_eq, checkQty_eq, checkList_eq]
  have hregs : checkFc10 p.unit p.addr p.qty p.regs = regMask := by rw [checkFc10_eq, checkQty_eq, checkList_eq]
  have h0F := congrArg maskResult hcoils
  have h10 := congrArg maskResult hregs
  obtain ⟨hcoilsLe, hregsLe⟩ := id hfits
  have hcoilsFit : listsFit p.coils [] = true := (listsFit_iff _ _).mpr ⟨hcoilsLe, Nat.zero_le _⟩
  have hregsFit : listsFit [] p.regs = true := (listsFit_iff _ _).mpr ⟨Nat.zero_le _, hregsLe⟩
  refine ⟨?command0F, perform_validateMask hcoilsFit h0F s, ?command10, perform_validateMask hregsFit h10 s⟩
  case command0F => exact fun hfc => exec_validateOf_of_code (f := .writeMultipleCoils) hfits hfc h0F m s
  case command10 => exact fun hfc => exec_validateOf_of_code (f := .writeMultipleRegisters) hfits hfc h10 m s

end Sys2Proof.Machine
end

section
/-! The frames ENCODE returns for a valid record (rules R157, R158, R160, R161, R163): one PDU, fixed by the operands, in
the wrapping of either mode; the transaction id is the only part of a frame that the state decides. -/

namespace Sys2Proof.Machine

/-- Two codes with one byte are one code (rule R76). -/
theorem toByte_inj {f g : FnCode} (h : f.toByte = g.toByte) : f = g := by
  simpa using congrArg FnCode.ofByte h

/-- A TCP frame with its MBAP length `n` written out: the PDU and the unit id, counted (rules R70, R75). -/
theorem wrapTcp_of_length {pdu : List Byte} {n : Nat} (h : pdu.length + 1 = n) (t : U16) (unit : Byte) :
    wrapTcp t unit pdu =
      [hi8 t, lo8 t, 0x00, 0x00, hi8 (BitVec.ofNat 16 n), lo8 (BitVec.ofNat 16 n), unit] ++ pdu := by
  rw [wrapTcp, mbapLength, h]

/-- ENCODE of a valid record of a known code returns its PDU wrapped, in either mode (rules R150, R160, R161). -/
theorem exec_encode_of_valid {p : Params} {f : FnCode} (hfits : Fits p) (hvalid : Valid p) (hf : p.fc = f.toByte)
    (s : State) :
    exec (.encodeRtu p) s = .next (s.finish (.ok (.adu (wrapRtu p.unit (pduOf f p))))) ∧
    exec (.encodeTcp p) s = .next (s.advanceTid.finish (.ok (.adu (wrapTcp s.tid p.unit (pduOf f p))))) := by
  obtain ⟨g, hg, -, hrtu, htcp⟩ := encodeParams_of_valid hvalid
  obtain rfl : f = g := toByte_inj (hf.symm.trans hg)
  exact ⟨(exec_encodeOf hfits .rtu s).trans (congrArg _ (hrtu s)),
    (exec_encodeOf hfits .tcp s).trans (congrArg _ (htcp s))⟩

/-- A valid record of 0x0F has as many coils as its quantity says (rule R135). -/
theorem Valid.coils_length {p : Params} (h : Valid p) (hfc : p.fc = 0x0F) : p.coils.length = p.qty.toNat := by
  obtain ⟨-, -, hlen⟩ : 1 ≤ p.qty.toNat ∧ p.qty.toNat ≤ 1968 ∧ p.coils.length = p.qty.toNat := by
    simpa [Valid, hfc] using h
  exact hlen

/-- A valid record of 0x10 has as many registers as its quantity says (rule R136). -/
theorem Valid.regs_length {p : Params} (h : Valid p) (hfc : p.fc = 0x10) : p.regs.length = p.qty.toNat := by
  obtain ⟨-, -, hlen⟩ : 1 ≤ p.qty.toNat ∧ p.qty.toNat ≤ 123 ∧ p.regs.length = p.qty.toNat := by
    simpa [Valid, hfc] using h
  exact hlen

/-- Settles O36: the packed bytes are `pack`'s, whose bit `i` is coil `i`, and 0 where the coils have ended. -/
theorem encodeMultipleCoils : Obligations.EncodeMultipleCoils := by
  intro p s hfits hvalid hfc
  have hcoils := hvalid.coils_length hfc
  obtain ⟨hrtu, htcp⟩ := exec_encode_of_valid (f := .writeMultipleCoils) hfits hvalid hfc s
  refine ⟨coilByteCount p.qty, pack (coilByteCount p.qty) p.coils, rfl, pack_length _ _, ?coil, ?fill, hrtu, ?tcp⟩
  case coil =>
    intro i hi
    exact pack_getLsbD _ _ (by unfold coilByteCount; omega)
  case fill =>
    intro i hqty hi
    rw [pack_getLsbD _ _ hi, List.getD_eq_default _ _ (by omega)]
  case tcp =>
    have hlen : (pduOf .writeMultipleCoils p).length + 1 = 7 + coilByteCount p.qty := by simp [pduOf, pduFc0F]; omega
    rw [htcp, wrapTcp_of_length hlen]
    rfl

/-- Settles O37: the data bytes are `regBytes`' of the whole list, since the list is as long as the quantity says. -/
theorem encodeMultipleRegisters : Obligations.EncodeMultipleRegisters := by
  intro p s hfits hvalid hfc
  have hregs := hvalid.regs_length hfc
  obtain ⟨hrtu, htcp⟩ := exec_encode_of_valid (f := .writeMultipleRegisters) hfits hvalid hfc s
  have hpdu : pduOf .writeMultipleRegisters p =
      [0x10, hi8 p.addr, lo8 p.addr, hi8 p.qty, lo8 p.qty, BitVec.ofNat 8 (regByteCount p.qty)] ++ regBytes p.regs := by
    rw [pduOf, pduFc10, ← hregs, List.take_length]
  have hdata : (regBytes p.regs).length = regByteCount p.qty := by rw [regBytes_length, hregs, regByteCount, Nat.mul_comm]
  rw [hpdu] at hrtu htcp
  refine ⟨regByteCount p.qty, regBytes p.regs, rfl, hdata, ?register, hrtu, ?tcp⟩
  case register => exact fun j hj => regBytes_getD p.regs (hregs ▸ hj)
  case tcp =>
    rw [htcp, wrapTcp_of_length (n := 7 + regByteCount p.qty) (by simp [hdata]; omega)]
    rfl

/-- A TCP frame from index 2 on (rule R163): the header's other fields and the PDU, which no transaction id touches. -/
def tcpFrameAfterId (unit : Byte) (pdu : List Byte) : List Byte :=
  [0x00, 0x00, hi8 (mbapLength pdu), lo8 (mbapLength pdu), unit] ++ pdu

/-- A TCP frame is the transaction id it is built for, then bytes that the id does not reach (rules R70, R163). -/
theorem wrapTcp_eq_id_append (t : U16) (unit : Byte) (pdu : List Byte) :
    wrapTcp t unit pdu = [hi8 t, lo8 t] ++ tcpFrameAfterId unit pdu := rfl

/-- ENCODE.RTU returns one result from every state (rules R23, R163). -/
theorem exec_encodeRtu_fixed {p : Params} (h : Fits p) : ∃ r, ∀ s, exec (.encodeRtu p) s = .next (s.finish r) := by
  obtain ⟨r, hr⟩ := encodeParams_rtu_returnsFixed p
  exact ⟨r, fun s => (exec_encodeOf h .rtu s).trans (congrArg _ (hr s))⟩

/-- ENCODE.TCP of a valid record appends a frame that only its first two bytes owe to TID, which moves on (rule R161). -/
theorem exec_encodeTcp_of_valid {p : Params} (hfits : Fits p) (hvalid : Valid p) : ∃ body, ∀ s,
    exec (.encodeTcp p) s = .next (s.advanceTid.finish (.ok (.adu ([hi8 s.tid, lo8 s.tid] ++ body)))) := by
  obtain ⟨f, hf, -⟩ := (valid_iff p).mp hvalid
  refine ⟨tcpFrameAfterId p.unit (pduOf f p), fun s => ?_⟩
  obtain ⟨-, htcp⟩ := exec_encode_of_valid hfits hvalid (ofByte_some hf) s
  rw [htcp, wrapTcp_eq_id_append]

/-- Settles O41: the second ENCODE.TCP starts with the successor in TID and appends to the same bytes. -/
theorem consecutiveTcpEncodesDifferOnlyInId : Obligations.ConsecutiveTcpEncodesDifferOnlyInId := by
  refine ⟨fun p hfits => exec_encodeRtu_fixed hfits, fun p s hfits hvalid => ?_⟩
  obtain ⟨body, hbody⟩ := exec_encodeTcp_of_valid hfits hvalid
  exact ⟨_, _, body, hbody s, hbody _, List.append_assoc _ _ _⟩

end Sys2Proof.Machine
end

section
/-! What DECODE answers when a frame is taken whole (rules R180, R196, R197, R201): as a command, and for a shell's frame by
the shape its function code selects. -/

namespace Sys2Proof.Machine

/-- DECODE of a frame within `IN_CAP`, in either mode (rules R42, R180). -/
theorem exec_decodeOf {f : List Byte} (h : f.length ≤ Config.seqCap) (m : Mode) (s : State) :
    exec (decodeOf m f) s = .next (s.finishExcept (decodeFrame m f)) := by
  cases m <;> exact perform_of_fits ((seqFits_iff f).mpr h)

/-- DECODE returns a value exactly for a frame within `IN_CAP` that the decoder takes (rules R42, R200). -/
theorem exec_decodeOf_ok_iff {m : Mode} {f : List Byte} {s : State} {v : Value} :
    exec (decodeOf m f) s = .next (s.finish (.ok v)) ↔ f.length ≤ Config.seqCap ∧ decodeFrame m f = .ok v := by
  constructor
  · intro h
    obtain ⟨hfits, hdone⟩ : seqFits f = true ∧ s.finishExcept (decodeFrame m f) = s.finish (.ok v) := by
      cases m <;> exact perform_next.mp h
    refine ⟨(seqFits_iff f).mp hfits, ?_⟩
    cases hd : decodeFrame m f with
    | error e =>
      rw [hd, finishExcept_error, raise_eq_finish] at hdone
      cases finish_inj hdone
    | ok w =>
      rw [hd, finishExcept_ok] at hdone
      cases finish_inj hdone
      rfl
  · rintro ⟨hlen, hd⟩
    rw [exec_decodeOf hlen, hd, finishExcept_ok]

/-- Settles O52: the decoder's cursor tiles the frame from the header to its end. -/
theorem segmentsPartitionTheFrame : Obligations.SegmentsPartitionTheFrame := by
  intro m f s segs h
  obtain ⟨-, hd⟩ := exec_decodeOf_ok_iff.mp h
  obtain ⟨_, hv, htiles, -⟩ := decodeFrame_ok hd
  cases hv
  exact htiles

/-- Where the decoder stands in a shell's frame once it has shown the function code byte (rule R185). -/
def pduCursor (sh : FrameShell) (fc : Byte) (body : List Byte) : Cursor :=
  ((Cursor.mk (sh.frame fc body) (pduAt sh) (pduAt sh + 1 + body.length) (headerSegments sh)).emit .func (pduAt sh) 1).skip 1

@[simp] theorem pduCursor_frame (sh : FrameShell) (fc : Byte) (body : List Byte) :
    (pduCursor sh fc body).frame = sh.frame fc body := rfl
@[simp] theorem pduCursor_pos (sh : FrameShell) (fc : Byte) (body : List Byte) :
    (pduCursor sh fc body).pos = pduAt sh + 1 := rfl
@[simp] theorem pduCursor_stop (sh : FrameShell) (fc : Byte) (body : List Byte) :
    (pduCursor sh fc body).stop = pduAt sh + 1 + body.length := rfl
@[simp] theorem pduCursor_segs (sh : FrameShell) (fc : Byte) (body : List Byte) :
    (pduCursor sh fc body).segs = headerSegments sh ++ [⟨.func, pduAt sh, 1, some (fc.setWidth 16)⟩] := by
  simp [pduCursor, Cursor.emit, Cursor.skip, segmentAt, segmentValue, fieldValue, rd8_pduAt]

/-- The value DECODE returns for a shell's frame whose shape ends at the cursor (rules R195, R197). -/
def pduValue (sh : FrameShell) (body : List Byte) (c : Cursor) : Value :=
  .segments (c.remainder.segs ++ trailerSegments (pduAt sh + 1 + body.length) sh)

theorem cursorOf_pduCursor (sh : FrameShell) (fc : Byte) (body : List Byte) :
    CursorOf (sh.frame fc body) (fieldBound sh.mode (sh.frame fc body)) (pduCursor sh fc body) := by
  obtain ⟨hcur, hroom, -⟩ := header_ok (header_shell sh fc body)
  exact hcur.emit_skip (by rintro _ ⟨⟩; rfl) (Nat.le_refl 1) hroom

/-- DECODE of a shell's frame is its function code's shape, between the header and the trailer (rules R180, R185). -/
theorem decodeFrame_shell (sh : FrameShell) (fc : Byte) (body : List Byte) :
    decodeFrame sh.mode (sh.frame fc body) = (shapeOf fc (pduCursor sh fc body)).map (pduValue sh body) := by
  have hstart : decodeFrame sh.mode (sh.frame fc body) = match shapeOf fc (pduCursor sh fc body) with
      | .error e => .error e
      | .ok c => .ok (.segments (c.remainder.trailer sh.mode).segs) := by
    simp only [decodeFrame, header_shell, rd8_pduAt]
    rfl
  rw [hstart]
  cases hs : shapeOf fc (pduCursor sh fc body) with
  | error e => rfl
  | ok c =>
    obtain ⟨hrem, -⟩ := ((cursorOf_pduCursor sh fc body).shapeOf hs).remainder
    exact congrArg (Except.ok ∘ Value.segments) (trailer_shell sh fc body _ hrem.frame)

/-- A byte that is none of the eight codes selects the shape without fields (rule R196). -/
theorem shapeOf_of_unsupported {fc : Byte} (h : fc ∉ supportedCodes) : shapeOf fc = shapeUnknown := by
  rw [shapeOf, ofByte_none.mpr h]

/-- DECODE of a shell's frame with an unknown function code shows the whole body as the remainder (rule R196). -/
theorem decodeFrame_shell_unknown (sh : FrameShell) {fc : Byte} (h : fc ∉ supportedCodes) (body : List Byte) :
    decodeFrame sh.mode (sh.frame fc body) = .ok (.segments (
      headerSegments sh ++ [⟨.func, pduAt sh, 1, some (fc.setWidth 16)⟩] ++
        remainderSegments (pduAt sh + 1) body.length ++ trailerSegments (pduAt sh + 1 + body.length) sh)) := by
  obtain ⟨hrem, -⟩ := remainder_eq (pduCursor sh fc body) (Nat.le_add_right _ _)
  rw [pduCursor_segs, pduCursor_pos, pduCursor_stop, Nat.add_sub_cancel_left] at hrem
  rw [decodeFrame_shell, shapeOf_of_unsupported h, ← hrem]
  rfl

/-- Settles O49: both frames are a shell's, and the shape of an unknown code leaves the body to the remainder. -/
theorem decodeUnknownCodeIsOpaque : Obligations.DecodeUnknownCodeIsOpaque := by
  intro unit fc lo hi t1 t0 p1 p0 l1 l0 body s hfc hlen
  constructor
  · exact exec_decodeOf_ok_iff (m := .rtu).mpr ⟨by simp; omega, decodeFrame_shell_unknown (.rtu unit lo hi) hfc body⟩
  · have hframe : (FrameShell.tcp (be16 t1 t0) (be16 p1 p0) (be16 l1 l0) unit).frame fc body =
        [t1, t0, p1, p0, l1, l0, unit, fc] ++ body := by simp [FrameShell.frame, be16Bytes]
    have hd := decodeFrame_shell_unknown (.tcp (be16 t1 t0) (be16 p1 p0) (be16 l1 l0) unit) hfc body
    rw [hframe] at hd
    refine exec_decodeOf_ok_iff (m := .tcp).mpr ⟨by simp; omega, hd.trans ?_⟩
    simp [headerSegments, trailerSegments, pduAt]

end Sys2Proof.Machine
end

section
/-! The RTU CRC is never verified (rule R197): up to the bound a decode reads only the bytes below it, so replacing the
bytes from the bound on moves the cursor to the other frame and changes nothing else. -/

namespace Sys2Proof.Machine

/-- Two frames hold the same bytes below an index. -/
def AgreeBelow (n : Nat) (f g : List Byte) : Prop := ∀ i < n, rd8 f i = rd8 g i

/-- The cursor put on another frame. -/
def Cursor.withFrame (g : List Byte) (c : Cursor) : Cursor := { c with frame := g }

@[simp] theorem withFrame_frame (g : List Byte) (c : Cursor) : (c.withFrame g).frame = g := rfl
@[simp] theorem withFrame_pos (g : List Byte) (c : Cursor) : (c.withFrame g).pos = c.pos := rfl
@[simp] theorem withFrame_stop (g : List Byte) (c : Cursor) : (c.withFrame g).stop = c.stop := rfl
@[simp] theorem withFrame_segs (g : List Byte) (c : Cursor) : (c.withFrame g).segs = c.segs := rfl
@[simp] theorem skip_withFrame (g : List Byte) (c : Cursor) (w : Nat) : (c.withFrame g).skip w = (c.skip w).withFrame g := rfl

theorem Kind.width_eq_one_or_two {k : Kind} {w : Nat} (h : k.width = some w) : w = 1 ∨ w = 2 := by
  cases k <;> cases h <;> decide

/-- A field that ends within the bound has one value in both frames (rule R181). -/
theorem AgreeBelow.fieldValue_eq {n : Nat} {f g : List Byte} (h : AgreeBelow n f g) {off w : Nat}
    (hw : w = 1 ∨ w = 2) (hn : off + w ≤ n) : fieldValue f off w = fieldValue g off w := by
  have hoff : rd8 f off = rd8 g off := h off (by omega)
  rcases hw with rfl | rfl
  · simp [fieldValue, hoff]
  · simp [fieldValue, rd16, hoff, h (off + 1) (by omega)]

/-- A segment that ends within the bound is the same in both frames (rule R181). -/
theorem AgreeBelow.segmentAt_eq {n : Nat} {f g : List Byte} (h : AgreeBelow n f g) {k : Kind} {off w : Nat}
    (hw : k.width = some w) (hn : off + w ≤ n) : segmentAt f k off w = segmentAt g k off w := by
  have hfield := h.fieldValue_eq (Kind.width_eq_one_or_two hw) hn
  unfold segmentAt segmentValue
  cases k
  case crc =>
    cases hw
    rw [h off (by omega), h (off + 1) (by omega)]
  all_goals simp only [hfield]

theorem AgreeBelow.emit_withFrame {g : List Byte} {c : Cursor} (h : AgreeBelow c.stop c.frame g) {k : Kind}
    {off w : Nat} (hw : k.width = some w) (hn : off + w ≤ c.stop) :
    (c.withFrame g).emit k off w = (c.emit k off w).withFrame g := by
  simp [Cursor.emit, Cursor.withFrame, h.segmentAt_eq hw hn]

/-- A Data segment has no value to read (rule R181). -/
@[simp] theorem emit_data_withFrame (g : List Byte) (c : Cursor) (off len : Nat) :
    (c.withFrame g).emit .data off len = (c.emit .data off len).withFrame g := rfl

theorem AgreeBelow.emitRun_withFrame {g : List Byte} {c : Cursor} (h : AgreeBelow c.stop c.frame g) {k : Kind}
    {w n : Nat} (hw : k.width = some w) (hn : c.pos + w * n ≤ c.stop) :
    (c.withFrame g).emitRun k w n = (c.emitRun k w n).withFrame g := by
  have hrun : ∀ j ∈ List.range n, segmentAt g k (c.pos + w * j) w = segmentAt c.frame k (c.pos + w * j) w := by
    intro j hj
    have hlast : w * (j + 1) ≤ w * n := Nat.mul_le_mul_left w (List.mem_range.mp hj)
    rw [Nat.mul_succ] at hlast
    exact (h.segmentAt_eq hw (by omega)).symm
  simp only [Cursor.emitRun, withFrame_frame, withFrame_pos, List.map_congr_left hrun]
  rfl

theorem AgreeBelow.coilRun_withFrame {g : List Byte} {c : Cursor} (h : AgreeBelow c.stop c.frame g) {n : Nat}
    (hn : c.pos + n ≤ c.stop) : coilRun n (c.withFrame g) = (coilRun n c).withFrame g :=
  h.emitRun_withFrame rfl (by omega)

theorem AgreeBelow.regRun_withFrame {g : List Byte} {c : Cursor} (h : AgreeBelow c.stop c.frame g) {n : Nat}
    (hn : c.pos + n ≤ c.stop) : regRun n (c.withFrame g) = (regRun n c).withFrame g := by
  have hpairs : (c.withFrame g).emitRun .regValue 2 (n / 2) = (c.emitRun .regValue 2 (n / 2)).withFrame g :=
    h.emitRun_withFrame rfl (by omega)
  unfold regRun
  rw [hpairs]
  by_cases hodd : n % 2 = 1
  · simp only [if_pos hodd]; rfl
  · simp only [if_neg hodd]

theorem AgreeBelow.shapeTwo_withFrame {g : List Byte} {c c' : Cursor} (h : AgreeBelow c.stop c.frame g) {second : Kind}
    (hw : second.width = some 2) (hs : shapeTwo second c = .ok c') :
    shapeTwo second (c.withFrame g) = .ok (c'.withFrame g) := by
  rw [shapeTwo_eq] at hs ⊢
  split at hs
  next hroom =>
    cases hs
    have hfirst : (c.withFrame g).emit .addr c.pos 2 = (c.emit .addr c.pos 2).withFrame g :=
      h.emit_withFrame rfl (by omega)
    have hsecond := AgreeBelow.emit_withFrame (c := (c.emit .addr c.pos 2).skip 2) h hw (off := c.pos + 2) hroom
    rw [if_pos (show (c.withFrame g).pos + 4 ≤ (c.withFrame g).stop from hroom), withFrame_pos, hfirst,
      skip_withFrame, hsecond, skip_withFrame]
  next => cases hs

theorem AgreeBelow.countedHead_withFrame {g : List Byte} {c : Cursor} (h : AgreeBelow c.stop c.frame g)
    (hn : c.pos + 5 ≤ c.stop) : countedHead (c.withFrame g) = (countedHead c).withFrame g := by
  have haddr := h.segmentAt_eq (k := .addr) (off := c.pos) rfl (by omega)
  have hqty := h.segmentAt_eq (k := .qty) (off := c.pos + 2) rfl (by omega)
  have hcount := h.segmentAt_eq (k := .byteCount) (off := c.pos + 4) rfl (by omega)
  simp [countedHead, Cursor.emit, Cursor.skip, Cursor.withFrame, haddr, hqty, hcount]

theorem AgreeBelow.shapeCounted_withFrame {g : List Byte} {c c' : Cursor} (h : AgreeBelow c.stop c.frame g)
    {run : Nat → Cursor → Cursor}
    (hrun : ∀ {d : Cursor} {n : Nat}, AgreeBelow d.stop d.frame g → d.pos + n ≤ d.stop →
      run n (d.withFrame g) = (run n d).withFrame g)
    (hs : shapeCounted run c = .ok c') : shapeCounted run (c.withFrame g) = .ok (c'.withFrame g) := by
  rw [shapeCounted_eq] at hs ⊢
  split at hs
  next hroom =>
    cases hs
    have hcount : rd8 g (c.pos + 4) = rd8 c.frame (c.pos + 4) := (h _ (by omega)).symm
    have hdata := hrun (d := countedHead c) h hroom
    simp only [withFrame_frame, withFrame_pos, withFrame_stop, hcount, if_pos hroom,
      h.countedHead_withFrame (by omega), hdata, skip_withFrame]
  next => cases hs

/-- A shape that succeeds on one frame does so on every frame with the same bytes below the bound, and stops at the same
place with the same segments (rules R182, R185). -/
theorem AgreeBelow.shapeOf_withFrame {g : List Byte} {c c' : Cursor} (h : AgreeBelow c.stop c.frame g) {fc : Byte}
    (hs : shapeOf fc c = .ok c') : shapeOf fc (c.withFrame g) = .ok (c'.withFrame g) := by
  unfold shapeOf at hs ⊢
  cases hfc : FnCode.ofByte fc with
  | none => rw [hfc] at hs; cases hs; rfl
  | some f =>
    rw [hfc] at hs
    cases f with
    | readCoils | readDiscreteInputs | readHoldingRegisters | readInputRegisters | writeSingleCoil
    | writeSingleRegister => exact h.shapeTwo_withFrame rfl hs
    | writeMultipleCoils => exact h.shapeCounted_withFrame (fun hd hn => hd.coilRun_withFrame hn) hs
    | writeMultipleRegisters => exact h.shapeCounted_withFrame (fun hd hn => hd.regRun_withFrame hn) hs

@[simp] theorem remainder_withFrame (g : List Byte) (c : Cursor) : (c.withFrame g).remainder = c.remainder.withFrame g := by
  unfold Cursor.remainder
  by_cases hroom : c.pos < c.stop
  · simp [hroom]
  · simp [hroom]

/-- The bytes of an RTU frame below the CRC do not depend on the CRC (rule R69). -/
theorem agreeBelow_rtu_crc (unit fc lo hi lo' hi' : Byte) (body : List Byte) :
    AgreeBelow (2 + body.length) ((FrameShell.rtu unit lo hi).frame fc body)
      ((FrameShell.rtu unit lo' hi').frame fc body) := by
  intro i hbelow
  have hfront : i < ([unit, fc] ++ body).length := by simp; omega
  simp only [FrameShell.frame, rd8, List.getD_append _ _ _ _ hfront]

/-- Up to the function code byte an RTU frame shows the same segments whatever its CRC is (rule R183). -/
theorem pduCursor_rtu_withFrame (unit fc lo hi lo' hi' : Byte) (body : List Byte) :
    (pduCursor (.rtu unit lo hi) fc body).withFrame ((FrameShell.rtu unit lo' hi').frame fc body) =
      pduCursor (.rtu unit lo' hi') fc body := rfl

/-- What an RTU frame decodes to is fixed by the bytes before the CRC, but for the last segment, which shows the CRC as it
stands (rule R197). -/
theorem decodeFrame_rtu_crc {unit fc lo hi : Byte} {body : List Byte} {segs : List Segment}
    (h : decodeFrame .rtu ([unit, fc] ++ body ++ [lo, hi]) = .ok (.segments segs)) :
    ∃ init, ∀ lo' hi', decodeFrame .rtu ([unit, fc] ++ body ++ [lo', hi']) =
      .ok (.segments (init ++ [⟨.crc, 2 + body.length, 2, some (be16 hi' lo')⟩])) := by
  have hd := (decodeFrame_shell (.rtu unit lo hi) fc body).symm.trans h
  cases hs : shapeOf fc (pduCursor (.rtu unit lo hi) fc body) with
  | error e => rw [hs] at hd; cases hd
  | ok c =>
    refine ⟨c.remainder.segs, fun lo' hi' => (decodeFrame_shell (.rtu unit lo' hi') fc body).trans ?_⟩
    have hs' := (agreeBelow_rtu_crc unit fc lo hi lo' hi' body).shapeOf_withFrame hs
    rw [pduCursor_rtu_withFrame] at hs'
    rw [hs']
    simp [Except.map, pduValue, trailerSegments, pduAt]

/-- A decoded RTU frame has a unit id, a function code byte and two CRC bytes (rule R183). -/
theorem decodeFrame_rtu_length {f : List Byte} {v : Value} (h : decodeFrame .rtu f = .ok v) : 4 ≤ f.length := by
  cases hc : header .rtu f with
  | error e => rw [decodeFrame, hc] at h; cases h
  | ok c =>
    obtain ⟨-, -, hlong⟩ := header_ok hc
    exact hlong rfl

/-- Settles O51: a frame that decodes is a unit id, a function code and a body before its CRC. -/
theorem decodeDoesNotVerifyCrc : Obligations.DecodeDoesNotVerifyCrc := by
  intro front lo hi lo' hi' s segs hlen h
  obtain ⟨-, hd⟩ := exec_decodeOf_ok_iff (m := .rtu).mp h
  obtain ⟨unit, fc, body, rfl⟩ : ∃ unit fc body, front = [unit, fc] ++ body := by
    have hlong := decodeFrame_rtu_length hd
    match front with
    | [] | [_] => simp at hlong
    | unit :: fc :: body => exact ⟨unit, fc, body, rfl⟩
  obtain ⟨init, hinit⟩ := decodeFrame_rtu_crc hd
  have hoff : ([unit, fc] ++ body).length = 2 + body.length := by simp; omega
  rw [hoff]
  refine ⟨init, ?_, exec_decodeOf_ok_iff (m := .rtu).mpr ⟨by simpa [Nat.add_assoc] using hlen, hinit lo' hi'⟩⟩
  cases hd.symm.trans (hinit lo hi)
  rfl

end Sys2Proof.Machine
end

section
/-! Precise errors (rules R220, R225): of the two ways in which an instruction ends, only `finish` can return a raised
status, and it changes nothing but the list of results. -/

namespace Sys2Proof.Machine

/-- An instruction that returned a raised status did that and no more: the successful TCP encode, the one way to end
that moves TID, returns OK. -/
theorem Ends.eq_raise {tcp : Bool} {s t : State} (h : Ends tcp s t) {e : Raise}
    (he : t.outbox = s.outbox ++ [.raised e]) : t = s.raise e := by
  rcases h with ⟨r, rfl, -⟩ | ⟨-, adu, rfl⟩
  · obtain rfl : r = .raised e := by simpa using he
    exact (raise_eq_finish e s).symm
  · simp at he

/-- Settles O18: every instruction ends in one of the ways of `Ends`, and `State.raise` writes the result alone. -/
theorem raisedStatusLeavesStateAlone : Obligations.RaisedStatusLeavesStateAlone := by
  intro i s t e h he
  exact (exec_next h).eq_raise he

end Sys2Proof.Machine
end

section
/-! Decode and encode agree (rules R60 to R65, R76): a command is read back by its descriptor, a function code row by
the row that its record or its frame meets. -/

namespace Sys2Proof.Machine

/-- The function code decoder on a VALIDATE request: the row its record meets (rule R76). -/
theorem decodeFc_validate (m : Mode) (b : List Byte) (p : Params) :
    decodeFc (Request.mk (validateCmd m) b p) = some (rowOfParams p (PduUse.validate m p.unit)) := by
  cases m with
  | rtu => simp only [decodeFc, validateCmd, BitVec.ofNat_eq_ofNat, decode_validateRtu]
  | tcp => simp only [decodeFc, validateCmd, BitVec.ofNat_eq_ofNat, decode_validateTcp]

/-- The function code decoder on an ENCODE request: the row its record meets (rule R76). -/
theorem decodeFc_encode (m : Mode) (b : List Byte) (p : Params) :
    decodeFc (Request.mk (encodeCmd m) b p) = some (rowOfParams p (PduUse.encode m p.unit)) := by
  cases m with
  | rtu => simp only [decodeFc, encodeCmd, BitVec.ofNat_eq_ofNat, decode_encodeRtu]
  | tcp => simp only [decodeFc, encodeCmd, BitVec.ofNat_eq_ofNat, decode_encodeTcp]

/-- A use of a function code row is read back from its request, if the code's record and the code's frames meet that
row. -/
theorem decodeFc_request {α : Type} {fc : Byte} {record : Byte → α → Params} {row : PduUse α → Instr}
    (hunit : ∀ unit x, (record unit x).unit = unit)
    (hrecord : ∀ unit x (mk : {β : Type} → β → PduUse β), rowOfParams (record unit x) mk = row (mk x))
    (hframe : ∀ sh body, rowOfFrame fc sh body = row (.decode sh body)) (u : PduUse α) :
    decodeFc (u.request fc record) = some (row u) := by
  cases u with
  | validate m unit x => rw [PduUse.request, decodeFc_validate, hunit, hrecord]
  | encode m unit x => rw [PduUse.request, decodeFc_encode, hunit, hrecord]
  | decode sh body => rw [PduUse.request, decodeFc_frame, hframe]

/-- The row of unknown codes is read back if no other row names its code (rule R77). -/
theorem decodeFc_request_unknown {fc : Byte} (hfc : fc ∉ supportedCodes) (u : PduUse RecordFields) :
    decodeFc (u.request fc (otherParams fc)) = some (.fcUnknown fc u) := by
  have hnone : FnCode.ofByte fc = none := ofByte_none.mpr hfc
  refine decodeFc_request (fun _ _ => rfl) (fun unit x mk => ?record) (fun sh body => ?frame) u
  case record => simp [rowOfParams, otherParams, hnone]
  case frame => simp [rowOfFrame, hnone]

/-- A command is read back from its own request (rule R61). -/
theorem decode_encode {i : Instr} (h : i.isCommand = true) : decode (encode i) = .ok i := by
  cases i with
  | crc16 data => exact decode_crc16 _ _
  | validateRtu p => exact decode_validateRtu _ _
  | encodeRtu p => exact decode_encodeRtu _ _
  | decodeRtu frame => exact decode_decodeRtu _ _
  | validateTcp p => exact decode_validateTcp _ _
  | encodeTcp p => exact decode_encodeTcp _ _
  | decodeTcp frame => exact decode_decodeTcp _ _
  | _ => cases h

/-- A well-formed function code row is read back from the request that meets it (rules R76, R77). -/
theorem decodeFc_encode_row {i : Instr} (hw : WellFormed i) (h : i.isCommand = false) :
    decodeFc (encode i) = some i := by
  cases i with
  | fc01ReadCoils u | fc02ReadDiscreteInputs u | fc03ReadHoldingRegisters u | fc04ReadInputRegisters u
  | fc05WriteSingleCoil u | fc06WriteSingleRegister u | fc0FWriteMultipleCoils u | fc10WriteMultipleRegisters u =>
    exact decodeFc_request (fun _ _ => rfl) (fun _ _ _ => rfl) (fun _ _ => rfl) u
  | fcUnknown fc u =>
    obtain ⟨hfc, -⟩ : fc ∉ supportedCodes ∧ _ := by simpa [WellFormed, Instr.wellFormed] using hw
    exact decodeFc_request_unknown hfc u
  | _ => cases h

/-- Settles O2: commands by the descriptor decoder's lemmas, rows by `decodeFc_request`. -/
theorem encodedInstructionDecodesBack : Obligations.EncodedInstructionDecodesBack :=
  fun _ hw => ⟨decode_encode, decodeFc_encode_row hw⟩

/-- What the descriptor decoder reads is a command, and its own descriptor is the request's (rule R61). -/
theorem isCommand_and_cmd_of_decode {r : Request} {i : Instr} (h : decode r = .ok i) :
    i.isCommand = true ∧ (encode i).cmd = r.cmd := by
  rcases decode_cases r with hc | hc | hc | hc | hc | hc | hc | ⟨-, e, he⟩
  iterate 7
    obtain ⟨hcmd, hd⟩ := hc
    cases hd.symm.trans h
    exact ⟨rfl, hcmd.symm⟩
  cases he.symm.trans h

/-- Settles O3: a decoded command has the request's descriptor, so `decode_encode` reads it back. -/
theorem decodedCommandHasItsDescriptor : Obligations.DecodedCommandHasItsDescriptor := by
  intro r i h
  obtain ⟨hcommand, hcmd⟩ := isCommand_and_cmd_of_decode h
  exact ⟨hcommand, hcmd, decode_encode hcommand⟩

/-- Settles O4: the words are computed. -/
theorem wordsOfTheTableDecode : Obligations.WordsOfTheTableDecode := by
  refine ⟨?_, ?_, ?_, ?_, ?_, ?_⟩ <;> decide

end Sys2Proof.Machine
end

section
/-! One step, event by event, and what it does to TID and to the list of results (rules R22, R31, R48, R235,
R250, R252). -/

namespace Sys2Proof.Machine

theorem step_idle {s : State} (h : s.inbox = []) : step s = .next s := by
  rw [step, fetch_idle h]

theorem step_reset {s : State} {rest : List HostEvent} (h : s.inbox = .reset :: rest) :
    step s = .next (s.take rest).seedTid := by
  rw [step, fetch_reset h]

theorem step_powerLoss {s : State} {rest : List HostEvent} (h : s.inbox = .powerLoss :: rest) :
    step s = .next (s.take rest).losePower := by
  rw [step, fetch_powerLoss h]

theorem step_unseeded {s : State} {r : Request} {rest : List HostEvent} (h : s.inbox = .command r :: rest)
    (hs : s.seeded = false) : step s = .fault .commandBeforeReset := by
  rw [step, fetch_unseeded h hs]

theorem step_run {s : State} {r : Request} {rest : List HostEvent} {i : Instr} (h : s.inbox = .command r :: rest)
    (hs : s.seeded = true) (hd : decode r = .ok i) : step s = exec i (s.take rest) := by
  rw [step, fetch_run h hs hd]

/-- Settles O5: what `fetch` hands over is what the descriptor decoder reads. -/
theorem stepRunsDecodedCommand : Obligations.StepRunsDecodedCommand :=
  fun _ _ _ _ hs hq hd => step_run hq hs hd

/-- Settles O9: two of the ways in which `fetch` answers. -/
theorem idleWaitsAndUnseededIsStuck : Obligations.IdleWaitsAndUnseededIsStuck :=
  fun _ _ _ => ⟨step_idle, fun hs hq => step_unseeded hq hs⟩

/-- Settles O10: both TIDs are draws. -/
theorem resetSeedsTid : Obligations.ResetSeedsTid := by
  refine ⟨⟨(tid0_range 0).1, (tid0_range 0).2, rfl⟩, fun s rest hq => ?_⟩
  obtain ⟨hlow, hhigh⟩ := tid0_range s.draws
  exact ⟨_, step_reset hq, hlow, hhigh, rfl, rfl, rfl⟩

/-- After a loss of power and a reset nothing is left of TID (rules R33, R250). -/
theorem seedTid_losePower_of_eq {s s' : State} (h : s' = { s with tid := s'.tid }) (rest rest' : List HostEvent) :
    ((s'.take rest).losePower.take rest').seedTid = ((s.take rest).losePower.take rest').seedTid := by
  rw [h]
  rfl

/-- Settles O11: the two steps replace TID, and take the rest of the state from what the two states share. -/
theorem powerLossForgetsTid : Obligations.PowerLossForgetsTid := by
  intro s s' rest hq heq
  have hq' : s'.inbox = .powerLoss :: .reset :: rest := (congrArg State.inbox heq).trans hq
  refine ⟨_, _, step_powerLoss hq, rfl, step_reset rfl, rfl, _, step_powerLoss hq', ?_⟩
  rw [← seedTid_losePower_of_eq heq]
  exact step_reset rfl

/-- Settles O12: the first TID is a draw. -/
theorem resetTidIsLegal : Obligations.ResetTidIsLegal :=
  fun _ => (tid0_range 0).1

/-- Rule R162 in numbers: 65535 is followed by 1. -/
theorem tidSucc_toNat (t : U16) : (tidSucc t).toNat = t.toNat % 65535 + 1 := by
  have hlt := t.isLt
  unfold tidSucc
  split
  next ht => subst ht; rfl
  next ht =>
    have hne : t.toNat ≠ 65535 := fun h => ht (BitVec.eq_of_toNat_eq h)
    rw [BitVec.toNat_add]
    simp
    omega

/-- A command that completes keeps the TID or moves it to its successor, and leaves power and queue alone. -/
theorem Ends.frame {tcp : Bool} {s t : State} (h : Ends tcp s t) :
    (t.tid = s.tid ∨ t.tid = tidSucc s.tid) ∧ ∃ r, t = { s with tid := t.tid, outbox := s.outbox ++ [r] } := by
  rcases h with ⟨r, rfl, -⟩ | ⟨-, adu, rfl⟩
  · exact ⟨Or.inl rfl, r, rfl⟩
  · exact ⟨Or.inr rfl, _, rfl⟩

/-- Settles O13: a reset draws a TID that is not 0, a loss of power leaves no state, and a command that completes keeps
the TID or moves it to a successor, which is never 0. -/
theorem stepKeepsTidLegal : Obligations.StepKeepsTidLegal := by
  intro s t hlegal hstep
  rcases step_next hstep with ⟨-, rfl⟩ | ⟨rest, -, rfl⟩ | ⟨rest, -, rfl⟩ | ⟨r, rest, i, -, hs, -, hexec⟩
  · exact hlegal
  · exact fun _ => (tid0_range _).1
  · nofun
  · obtain ⟨htid | htid, -⟩ := (exec_next hexec).frame
    · exact fun _ => htid ▸ hlegal hs
    · intro _
      rw [htid, tidSucc_toNat]
      omega

/-- Settles O17: the second part of `Ends.frame`. -/
theorem commandChangesOnlyTidAndResult : Obligations.CommandChangesOnlyTidAndResult :=
  fun _ _ _ h => (exec_next h).frame.2

/-- Settles O19: `exec_stateBlind`. -/
theorem resultDependsOnOperandsAlone : Obligations.ResultDependsOnOperandsAlone :=
  fun _ hi => exec_stateBlind hi

/-- Of the commands the port knows only ENCODE.TCP is a TCP encode. -/
theorem eq_encodeTcp_of_decode {r : Request} {i : Instr} (hd : decode r = .ok i) (h : isTcpEncode i = true) :
    ∃ p, i = .encodeTcp p := by
  obtain ⟨hcommand, -⟩ := isCommand_and_cmd_of_decode hd
  cases i with
  | encodeTcp p => exact ⟨p, rfl⟩
  | crc16 _ | validateRtu _ | encodeRtu _ | decodeRtu _ | validateTcp _ | decodeTcp _ => cases h
  | _ => cases hcommand

/-- Settles O15: the step's four kinds; of the commands only one that ends by advancing TID writes it. -/
theorem onlyResetAndTcpEncodeWriteTid : Obligations.OnlyResetAndTcpEncodeWriteTid := by
  intro s t hstep hseeded
  rcases step_next hstep with ⟨-, rfl⟩ | ⟨rest, hq, -⟩ | ⟨rest, -, rfl⟩ | ⟨r, rest, i, hq, -, hd, hexec⟩
  · exact Or.inl rfl
  · exact Or.inr (Or.inl ⟨rest, hq⟩)
  · cases hseeded
  · rcases exec_next hexec with ⟨result, rfl, -⟩ | ⟨htcp, adu, rfl⟩
    · exact Or.inl rfl
    · obtain ⟨p, rfl⟩ := eq_encodeTcp_of_decode hd htcp
      exact Or.inr (Or.inr ⟨r, rest, p, adu, hq, hd, rfl, rfl⟩)

/-- `k` successors of a nonzero TID count round the range [1, 0xFFFF] (rule R162). -/
theorem tidSucc_iterate_toNat {t : U16} (ht : t ≠ 0) (k : Nat) :
    (tidSucc^[k] t).toNat = (t.toNat - 1 + k) % 65535 + 1 := by
  have hpos : t.toNat ≠ 0 := fun h => ht (BitVec.eq_of_toNat_eq h)
  have hlt := t.isLt
  induction k with
  | zero => simp only [Function.iterate_zero, id_eq]; omega
  | succ k ih => rw [Function.iterate_succ_apply', tidSucc_toNat, ih]; omega

/-- Settles O14: `tidSucc_iterate_toNat` makes it arithmetic modulo 65535. -/
theorem tidRunsThroughEveryId : Obligations.TidRunsThroughEveryId := by
  refine ⟨fun t => ⟨?wrap, ?next⟩, ?reaches, ?cycle⟩
  case wrap => rintro rfl; rfl
  case next =>
    intro ht
    have hlt := t.isLt
    have hne : t.toNat ≠ 65535 := fun h => ht (BitVec.eq_of_toNat_eq h)
    rw [tidSucc_toNat]
    omega
  case reaches =>
    intro t u ht hu
    have hlt := u.isLt
    have hpos : u.toNat ≠ 0 := fun h => hu (BitVec.eq_of_toNat_eq h)
    refine ⟨(u.toNat - 1 + (65535 - (t.toNat - 1) % 65535)) % 65535, Nat.mod_lt _ (by omega),
      BitVec.eq_of_toNat_eq ?_⟩
    rw [tidSucc_iterate_toNat ht]
    omega
  case cycle =>
    intro t j k ht
    have hj := tidSucc_iterate_toNat ht j
    have hk := tidSucc_iterate_toNat ht k
    constructor
    · intro h
      rw [h] at hk
      simp at hk
    · intro h
      rw [h, hk] at hj
      omega

end Sys2Proof.Machine
end

section
/-! VALIDATE and ENCODE by the validation table (rules R130, R150): on a record outside it both raise one status, on a
record in it both answer OK; and how the two commands and DECODE meet the port's capacity (rule R42). -/

namespace Sys2Proof.Machine

/-- The status a record outside the validation table raises (rules R130, R150, R220). -/
def recordRaise (p : Params) : Raise :=
  match FnCode.ofByte p.fc with
  | none => .unsupportedFc
  | some f => .paramInvalid (checkParams f p)

theorem validateParams_of_not_valid {p : Params} (h : ¬ Valid p) (s : State) :
    validateParams p s = s.raise (recordRaise p) := by
  rw [valid_iff] at h
  unfold validateParams recordRaise
  cases hf : FnCode.ofByte p.fc with
  | none => rfl
  | some f => exact validateMask_ne (fun hc => h ⟨f, hf, hc⟩) s

theorem encodeParams_of_not_valid {p : Params} (h : ¬ Valid p) (m : Mode) (s : State) :
    encodeParams m p s = s.raise (recordRaise p) := by
  rw [valid_iff] at h
  unfold encodeParams recordRaise
  cases hf : FnCode.ofByte p.fc with
  | none => rfl
  | some f => exact encodeMask_ne (fun hc => h ⟨f, hf, hc⟩) m p.unit _ s

theorem validateParams_of_valid {p : Params} (h : Valid p) (s : State) :
    validateParams p s = s.finish (.ok .valid) := by
  obtain ⟨f, hf, hc⟩ := (valid_iff p).mp h
  rw [validateParams_of_code (ofByte_some hf), hc, validateMask_zero]

/-- Settles O30: `validateParams_of_valid` and `validateParams_of_not_valid`. -/
theorem validatePassesExactlyTheTable : Obligations.ValidatePassesExactlyTheTable := by
  intro m p s hfits
  rw [exec_validateOf hfits]
  exact ⟨fun h => congrArg _ (validateParams_of_valid h s),
    fun h => ⟨recordRaise p, congrArg _ (validateParams_of_not_valid h s)⟩⟩

/-- VALIDATE and ENCODE of an unsupported code in a record that fits (rules R77, R130, R150). -/
theorem exec_of_unsupported {p : Params} (hfits : Fits p) (h : p.fc ∉ supportedCodes) (m : Mode) (s : State) :
    exec (validateOf m p) s = .next (s.raise .unsupportedFc) ∧
    exec (encodeOf m p) s = .next (s.raise .unsupportedFc) := by
  rw [exec_validateOf hfits, exec_encodeOf hfits, validateParams_of_unsupported h, encodeParams_of_unsupported h]
  exact ⟨rfl, rfl⟩

/-- A raised status is returned by VALIDATE exactly when ENCODE returns it: outside the table it is `recordRaise`,
inside it neither raises any. -/
theorem validate_raises_iff_encode_raises (m : Mode) (p : Params) (s : State) (e : Raise) :
    validateParams p s = s.raise e ↔ encodeParams m p s = s.raise e := by
  by_cases hvalid : Valid p
  · obtain ⟨f, -, -, hrtu, htcp⟩ := encodeParams_of_valid hvalid
    rw [validateParams_of_valid hvalid]
    constructor
    · intro h
      cases finish_inj h
    · intro h
      exfalso
      have hout := congrArg State.outbox h
      cases m with
      | rtu => simp [hrtu, raise_eq_finish] at hout
      | tcp => simp [htcp, raise_eq_finish] at hout
  · rw [validateParams_of_not_valid hvalid, encodeParams_of_not_valid hvalid]

/-- VALIDATE answers OK exactly on the records of the table (rule R130). -/
theorem validateParams_eq_ok_iff (p : Params) (s : State) : validateParams p s = s.finish (.ok .valid) ↔ Valid p := by
  refine ⟨fun h => ?_, fun h => validateParams_of_valid h s⟩
  by_contra hvalid
  rw [validateParams_of_not_valid hvalid] at h
  cases finish_inj h

/-- ENCODE returns a frame exactly for the records of the table (rule R150). -/
theorem encodeParams_builds_iff (m : Mode) (p : Params) (s : State) :
    (∃ adu, (encodeParams m p s).outbox = s.outbox ++ [.ok (.adu adu)]) ↔ Valid p := by
  constructor
  · rintro ⟨adu, h⟩
    by_contra hvalid
    simp [encodeParams_of_not_valid hvalid, raise_eq_finish] at h
  · intro hvalid
    obtain ⟨f, -, -, hrtu, htcp⟩ := encodeParams_of_valid hvalid
    cases m with
    | rtu => exact ⟨_, congrArg State.outbox (hrtu s)⟩
    | tcp => exact ⟨_, congrArg State.outbox (htcp s)⟩

/-- Settles O33: the statuses agree, and both answer OK exactly on the records of the table. -/
theorem encodeRepeatsValidation : Obligations.EncodeRepeatsValidation := by
  intro m p s hfits
  rw [exec_validateOf hfits, exec_encodeOf hfits]
  refine ⟨fun e => ?raises, ?builds⟩
  case raises =>
    rw [Host.Outcome.next.injEq, Host.Outcome.next.injEq]
    exact validate_raises_iff_encode_raises m p s e
  case builds =>
    have hok : validateParams p s = { s with outbox := s.outbox ++ [.ok .valid] } ↔ Valid p :=
      validateParams_eq_ok_iff p s
    rw [Host.Outcome.next.injEq, hok, ← encodeParams_builds_iff m p s]
    simp

theorem exec_validateOf_eq (m : Mode) (p : Params) (s : State) :
    exec (validateOf m p) s = perform (paramsFit p) (validateParams p s) := by
  cases m <;> rfl

theorem exec_encodeOf_eq (m : Mode) (p : Params) (s : State) :
    exec (encodeOf m p) s = perform (paramsFit p) (encodeParams m p s) := by
  cases m <;> rfl

theorem exec_decodeOf_eq (m : Mode) (f : List Byte) (s : State) :
    exec (decodeOf m f) s = perform (seqFits f) (s.finishExcept (decodeFrame m f)) := by
  cases m <;> rfl

theorem paramsFit_of_not_fits {p : Params} (h : ¬ Fits p) : paramsFit p = false :=
  Bool.eq_false_iff.mpr (mt (paramsFit_iff p).mp h)

/-- Rule R42: a record that does not fit is refused. -/
theorem exec_validateOf_of_too_long {p : Params} (h : ¬ Fits p) (m : Mode) (s : State) :
    exec (validateOf m p) s = .refused .operandTooLong := by
  rw [exec_validateOf_eq, perform_of_not_fits (paramsFit_of_not_fits h)]

theorem exec_encodeOf_of_too_long {p : Params} (h : ¬ Fits p) (m : Mode) (s : State) :
    exec (encodeOf m p) s = .refused .operandTooLong := by
  rw [exec_encodeOf_eq, perform_of_not_fits (paramsFit_of_not_fits h)]

theorem exec_decodeOf_of_too_long {f : List Byte} (h : Config.seqCap < f.length) (m : Mode) (s : State) :
    exec (decodeOf m f) s = .refused .operandTooLong := by
  have hfits : seqFits f = false := Bool.eq_false_iff.mpr (mt (seqFits_iff f).mp (Nat.not_le.mpr h))
  rw [exec_decodeOf_eq, perform_of_not_fits hfits]

/-- One list that is too long is enough for a record not to fit (log entry 5). -/
theorem not_fits_of_too_long {p : Params} (h : Config.listCap < p.coils.length ∨ Config.listCap < p.regs.length) :
    ¬ Fits p := by
  rintro ⟨hcoils, hregs⟩
  omega

/-- Settles O7: both sides of each capacity, command by command. -/
theorem overlongOperandIsRefused : Obligations.OverlongOperandIsRefused := by
  intro s b p m
  refine ⟨fun h => ⟨exec_crc16_of_too_long h s, exec_decodeOf_of_too_long h m s⟩,
    fun h => ⟨⟨_, exec_crc16_of_fits h s⟩, _, exec_decodeOf h m s⟩, fun h => ?_,
    fun h => ⟨⟨_, exec_validateOf h m s⟩, _, exec_encodeOf h m s⟩⟩
  have hfits := not_fits_of_too_long h
  exact ⟨exec_validateOf_of_too_long hfits m s, exec_encodeOf_of_too_long hfits m s⟩

end Sys2Proof.Machine
end

section
/-! A queue of accepted commands (rules R48, R231, R260): each command completes from every state, and each step returns
one result. -/

namespace Sys2Proof.Machine

/-- The TID after a command: its successor if the request draws an id (rules R161, R162). -/
def tidAfter (r : Request) (tid : U16) : U16 := if drawsTid r then tidSucc tid else tid

/-- The state a command leaves: one more result, and TID as the request moves it. -/
def State.completed (r : Request) (result : Result) (s : State) : State :=
  { s with tid := tidAfter r s.tid, outbox := s.outbox ++ [result] }

theorem tidAfter_encodeTcp {r : Request} {p : Params} (hd : decode r = .ok (.encodeTcp p)) (tid : U16) :
    tidAfter r tid = if Valid p then tidSucc tid else tid := by
  unfold tidAfter drawsTid
  rw [hd]
  simp only [decide_eq_true_eq]

/-- A request draws an id only if it decodes to a TCP encode (rule R23). -/
theorem tidAfter_of_not_tcpEncode {r : Request} {i : Instr} (hd : decode r = .ok i) (h : isTcpEncode i = false)
    (tid : U16) : tidAfter r tid = tid := by
  unfold tidAfter drawsTid
  rw [hd]
  cases i with
  | encodeTcp p => cases h
  | _ => rfl

/-- ENCODE.TCP of a record that fits returns one result, and draws an id exactly for a valid record (rule R161). -/
theorem encodeTcp_completes {r : Request} {p : Params} (hd : decode r = .ok (.encodeTcp p)) (hfits : Fits p)
    (s : State) : ∃ result, exec (.encodeTcp p) s = .next (s.completed r result) := by
  unfold State.completed
  rw [tidAfter_encodeTcp hd]
  by_cases hvalid : Valid p
  · obtain ⟨body, hbody⟩ := exec_encodeTcp_of_valid hfits hvalid
    exact ⟨_, by rw [hbody, if_pos hvalid]; rfl⟩
  · refine ⟨.raised (recordRaise p), (exec_encodeOf hfits .tcp s).trans ?_⟩
    rw [encodeParams_of_not_valid hvalid, if_neg hvalid]
    rfl

/-- A well-formed command completes from every state (rule R42). -/
theorem exec_completes_of_wellFormed {i : Instr} (hw : WellFormed i) (hcommand : i.isCommand = true) (s : State) :
    ∃ t, exec i s = .next t := by
  cases i with
  | crc16 data => exact ⟨_, exec_crc16_of_fits ((seqWithin_iff _).mp hw) s⟩
  | validateRtu p => exact ⟨_, exec_validateOf ((paramsFit_iff p).mp hw) .rtu s⟩
  | validateTcp p => exact ⟨_, exec_validateOf ((paramsFit_iff p).mp hw) .tcp s⟩
  | encodeRtu p => exact ⟨_, exec_encodeOf ((paramsFit_iff p).mp hw) .rtu s⟩
  | encodeTcp p => exact ⟨_, exec_encodeOf ((paramsFit_iff p).mp hw) .tcp s⟩
  | decodeRtu f => exact ⟨_, exec_decodeOf ((seqWithin_iff _).mp hw) .rtu s⟩
  | decodeTcp f => exact ⟨_, exec_decodeOf ((seqWithin_iff _).mp hw) .tcp s⟩
  | _ => cases hcommand

theorem accepted_iff (r : Request) : accepted r = true ↔ ∃ i, decode r = .ok i ∧ WellFormed i := by
  unfold accepted
  cases decode r with
  | error e => simp
  | ok i => simp [WellFormed]

/-- An accepted command completes from every state with one result, and TID moves if the request draws an id. -/
theorem accepted_completes {r : Request} (h : accepted r = true) : ∃ i, decode r = .ok i ∧ ∀ s, ∃ result,
    exec i s = .next (s.completed r result) := by
  obtain ⟨i, hd, hw⟩ := (accepted_iff r).mp h
  obtain ⟨hcommand, -⟩ := isCommand_and_cmd_of_decode hd
  refine ⟨i, hd, fun s => ?_⟩
  cases htcp : isTcpEncode i with
  | true =>
    obtain ⟨p, rfl⟩ := eq_encodeTcp_of_decode hd htcp
    exact encodeTcp_completes hd ((paramsFit_iff p).mp hw) s
  | false =>
    obtain ⟨t, ht⟩ := exec_completes_of_wellFormed hw hcommand s
    have hends := exec_next ht
    rw [htcp] at hends
    obtain ⟨result, rfl, -⟩ | ⟨hfalse, -⟩ := hends
    · exact ⟨result, by rw [ht, State.completed, tidAfter_of_not_tcpEncode hd htcp]; rfl⟩
    · cases hfalse

/-- A run takes its first step and goes on from there. -/
theorem run_succ {s t : State} (h : step s = .next t) (k : Nat) :
    Host.Core.run Sys2Proof.core (k + 1) s = Host.Core.run Sys2Proof.core k t := by
  have hcore : Sys2Proof.core.step s = .next t := h
  simp only [Host.Core.run, hcore]

/-- Settles O20, by induction on the queue: the first step returns the first command's result, and the run from there
is that of the rest. -/
theorem queueRunsToItsEnd : Obligations.QueueRunsToItsEnd := by
  intro rs
  induction rs with
  | nil =>
    intro s _ hq _
    exact ⟨s, [], rfl, hq, by simp, rfl, rfl, by simp⟩
  | cons r rest ih =>
    intro s hs hq hall
    obtain ⟨i, hd, hexec⟩ := accepted_completes (hall r List.mem_cons_self)
    obtain ⟨result, hresult⟩ := hexec (s.take (rest.map .command))
    have hstep := (step_run hq hs hd).trans hresult
    obtain ⟨t, results, hrun, hinbox, houtbox, hlength, htid, hcommands⟩ :=
      ih ((s.take (rest.map .command)).completed r result) hs rfl fun r' hr' => hall r' (List.mem_cons_of_mem _ hr')
    refine ⟨t, result :: results, (run_succ hstep _).trans hrun, hinbox, by simp [houtbox, State.completed],
      by simp [hlength], ?tid, ?each⟩
    case tid =>
      rw [htid, List.filter_cons]
      cases hdraws : drawsTid r <;> simp [State.completed, tidAfter, hdraws]
    case each =>
      intro k r' hk
      cases k with
      | zero =>
        obtain rfl : r = r' := by simpa using hk
        exact ⟨s, _, i, result, rfl, by simp, hd, hresult, run_succ hstep 0, rfl, rfl⟩
      | succ k =>
        obtain ⟨u, v, i', result', hu, huout, hd', hexec', hv, hk', hvout⟩ := hcommands k r' hk
        exact ⟨u, v, i', result', (run_succ hstep k).trans hu, by simp [huout, State.completed], hd', hexec',
          (run_succ hstep (k + 1)).trans hv, hk', hvout⟩

end Sys2Proof.Machine
end

section
/-! The function code rows as commands (log entry 3): a use of a row is the command that the code's record or frame
makes, so what holds of the commands holds of the rows. -/

namespace Sys2Proof.Machine

/-- The command that a use of a function code row makes, on the code's record or frame. -/
def useCommand {α : Type} (fc : Byte) (record : Byte → α → Params) : PduUse α → Instr
  | .validate m unit x => validateOf m (record unit x)
  | .encode m unit x => encodeOf m (record unit x)
  | .decode sh body => decodeOf sh.mode (sh.frame fc body)

/-- The command an instruction is, or makes if it is a function code row. -/
def commandOf : Instr → Instr
  | .fc01ReadCoils u => useCommand 0x01 (readParams 0x01) u
  | .fc02ReadDiscreteInputs u => useCommand 0x02 (readParams 0x02) u
  | .fc03ReadHoldingRegisters u => useCommand 0x03 (readParams 0x03) u
  | .fc04ReadInputRegisters u => useCommand 0x04 (readParams 0x04) u
  | .fc05WriteSingleCoil u => useCommand 0x05 (writeOneParams 0x05) u
  | .fc06WriteSingleRegister u => useCommand 0x06 (writeOneParams 0x06) u
  | .fc0FWriteMultipleCoils u => useCommand 0x0F writeCoilsParams u
  | .fc10WriteMultipleRegisters u => useCommand 0x10 writeRegsParams u
  | .fcUnknown fc u => useCommand fc (otherParams fc) u
  | i => i

/-- A row whose parts are what the dispatch finds for its code does what the command does (rules R64, R185). -/
theorem exec_useCommand {α : Type} (f : FnCode) (record : Byte → α → Params) {fits : α → Bool}
    {check : Byte → α → Byte} {pdu : α → List Byte}
    (h : ∀ unit x, (record unit x).fc = f.toByte ∧ (record unit x).unit = unit ∧ paramsFit (record unit x) = fits x ∧
      checkParams f (record unit x) = check unit x ∧ pduOf f (record unit x) = pdu x)
    (u : PduUse α) (s : State) :
    exec (useCommand f.toByte record u) s = rowUse f.toByte fits check pdu (shapeOf f.toByte) u s := by
  cases u with
  | validate m unit x =>
    obtain ⟨hfc, -, hfits, hcheck, -⟩ := h unit x
    rw [useCommand, exec_validateOf_eq, validateParams_of_code hfc, hfits, hcheck, rowUse]
  | encode m unit x =>
    obtain ⟨hfc, hunit, hfits, hcheck, hpdu⟩ := h unit x
    rw [useCommand, exec_encodeOf_eq, encodeParams_of_code hfc, hunit, hfits, hcheck, hpdu, rowUse]
  | decode sh body =>
    rw [useCommand, exec_decodeOf_eq, rowUse, decodeShape_frame]

/-- Every instruction does what its command does. -/
theorem exec_commandOf (i : Instr) (s : State) : exec (commandOf i) s = exec i s := by
  cases i with
  | fc01ReadCoils u =>
    exact exec_useCommand .readCoils (readParams 0x01) (fun _ _ => ⟨rfl, rfl, rfl, rfl, rfl⟩) u s
  | fc02ReadDiscreteInputs u =>
    exact exec_useCommand .readDiscreteInputs (readParams 0x02) (fun _ _ => ⟨rfl, rfl, rfl, rfl, rfl⟩) u s
  | fc03ReadHoldingRegisters u =>
    exact exec_useCommand .readHoldingRegisters (readParams 0x03) (fun _ _ => ⟨rfl, rfl, rfl, rfl, rfl⟩) u s
  | fc04ReadInputRegisters u =>
    exact exec_useCommand .readInputRegisters (readParams 0x04) (fun _ _ => ⟨rfl, rfl, rfl, rfl, rfl⟩) u s
  | fc05WriteSingleCoil u =>
    exact exec_useCommand .writeSingleCoil (writeOneParams 0x05) (fun _ _ => ⟨rfl, rfl, rfl, rfl, rfl⟩) u s
  | fc06WriteSingleRegister u =>
    exact exec_useCommand .writeSingleRegister (writeOneParams 0x06) (fun _ _ => ⟨rfl, rfl, rfl, rfl, rfl⟩) u s
  | fc0FWriteMultipleCoils u =>
    exact exec_useCommand .writeMultipleCoils writeCoilsParams (fun _ _ => ⟨rfl, rfl, rfl, rfl, rfl⟩) u s
  | fc10WriteMultipleRegisters u =>
    exact exec_useCommand .writeMultipleRegisters writeRegsParams (fun _ _ => ⟨rfl, rfl, rfl, rfl, rfl⟩) u s
  | fcUnknown fc u =>
    cases u with
    | validate m unit x => exact exec_validateOf_eq m _ s
    | encode m unit x => exact exec_encodeOf_eq m _ s
    | decode sh body => exact exec_decodeOf_eq sh.mode _ s
  | _ => rfl

/-- The row a frame selects decodes the frame (rules R76, R185, R196). -/
theorem commandOf_rowOfFrame (fc : Byte) (sh : FrameShell) (body : List Byte) :
    commandOf (rowOfFrame fc sh body) = decodeOf sh.mode (sh.frame fc body) := by
  unfold rowOfFrame
  cases hf : FnCode.ofByte fc with
  | none => rfl
  | some f => rw [ofByte_some hf]; cases f <;> rfl

/-- A record with the fields its function code does not use left out (rules R64, R81). -/
def onlyUsedFields (p : Params) : Params :=
  match FnCode.ofByte p.fc with
  | some .readCoils => readParams 0x01 p.unit ⟨p.addr, p.qty⟩
  | some .readDiscreteInputs => readParams 0x02 p.unit ⟨p.addr, p.qty⟩
  | some .readHoldingRegisters => readParams 0x03 p.unit ⟨p.addr, p.qty⟩
  | some .readInputRegisters => readParams 0x04 p.unit ⟨p.addr, p.qty⟩
  | some .writeSingleCoil => writeOneParams 0x05 p.unit ⟨p.addr, p.value⟩
  | some .writeSingleRegister => writeOneParams 0x06 p.unit ⟨p.addr, p.value⟩
  | some .writeMultipleCoils => writeCoilsParams p.unit ⟨p.addr, p.qty, p.coils⟩
  | some .writeMultipleRegisters => writeRegsParams p.unit ⟨p.addr, p.qty, p.regs⟩
  | none => p

theorem sameUsedFields_onlyUsedFields (p : Params) : SameUsedFields (onlyUsedFields p) p := by
  unfold onlyUsedFields
  cases hf : FnCode.ofByte p.fc with
  | none => simp [SameUsedFields]
  | some f =>
    have hfc := ofByte_some hf
    cases f <;> simp [SameUsedFields, hfc, FnCode.toByte, readParams, writeOneParams, writeCoilsParams, writeRegsParams]

theorem Fits.onlyUsedFields {p : Params} (h : Fits p) : Fits (onlyUsedFields p) := by
  obtain ⟨hcoils, hregs⟩ := id h
  unfold Sys2Proof.Machine.onlyUsedFields
  cases FnCode.ofByte p.fc with
  | none => exact h
  | some f =>
    cases f with
    | writeMultipleCoils => exact ⟨hcoils, Nat.zero_le _⟩
    | writeMultipleRegisters => exact ⟨Nat.zero_le _, hregs⟩
    | _ => exact ⟨Nat.zero_le _, Nat.zero_le _⟩

/-- The row a record meets is its command on the fields used, for VALIDATE and for ENCODE (rules R64, R76). -/
theorem commandOf_rowOfParams (m : Mode) (p : Params) :
    commandOf (rowOfParams p (PduUse.validate m p.unit)) = validateOf m (onlyUsedFields p) ∧
    commandOf (rowOfParams p (PduUse.encode m p.unit)) = encodeOf m (onlyUsedFields p) := by
  unfold rowOfParams onlyUsedFields
  cases FnCode.ofByte p.fc with
  | none => exact ⟨rfl, rfl⟩
  | some f => cases f <;> exact ⟨rfl, rfl⟩

/-- The row a record meets does what the command does on the record (rule R64). -/
theorem exec_rowOfParams {p : Params} (h : Fits p) (m : Mode) (s : State) :
    exec (rowOfParams p (PduUse.validate m p.unit)) s = exec (validateOf m p) s ∧
    exec (rowOfParams p (PduUse.encode m p.unit)) s = exec (encodeOf m p) s := by
  obtain ⟨hvalidate, hencode⟩ := commandOf_rowOfParams m p
  rw [← exec_commandOf (rowOfParams _ _), ← exec_commandOf (rowOfParams p (PduUse.encode m p.unit)), hvalidate, hencode]
  exact unusedFieldsAreIgnored m _ p s h.onlyUsedFields h (sameUsedFields_onlyUsedFields p)

/-- The row a frame selects does what DECODE does with the frame (rule R185). -/
theorem exec_rowOfFrame (fc : Byte) (sh : FrameShell) (body : List Byte) (s : State) :
    exec (rowOfFrame fc sh body) s = exec (decodeOf sh.mode (sh.frame fc body)) s := by
  rw [← exec_commandOf, commandOf_rowOfFrame]

/-- A list of at least two elements ends in two. -/
theorem exists_append_two {l : List Byte} (h : 2 ≤ l.length) : ∃ body lo hi, l = body ++ [lo, hi] := by
  have hdrop : (l.drop (l.length - 2)).length = 2 := by rw [List.length_drop]; omega
  obtain ⟨lo, hi, hlast⟩ := List.length_eq_two.mp hdrop
  exact ⟨_, lo, hi, by rw [← hlast, List.take_append_drop]⟩

/-- What an RTU frame is taken apart into makes it up again (rule R69). -/
theorem frame_of_splitRtu {f : List Byte} {fc : Byte} {sh : FrameShell} {body : List Byte}
    (h : splitRtu f = some (fc, sh, body)) : sh.mode = .rtu ∧ sh.frame fc body = f := by
  match f with
  | [] | [_] => cases h
  | unit :: fc' :: rest =>
    by_cases hlen : 2 ≤ rest.length
    · obtain ⟨body', lo, hi, rfl⟩ := exists_append_two hlen
      cases (splitRtu_frame unit lo hi fc' body').symm.trans h
      exact ⟨rfl, rfl⟩
    · rw [splitRtu, if_neg hlen] at h
      cases h

/-- What a TCP frame is taken apart into makes it up again (rule R70). -/
theorem frame_of_splitTcp {f : List Byte} {fc : Byte} {sh : FrameShell} {body : List Byte}
    (h : splitTcp f = some (fc, sh, body)) : sh.mode = .tcp ∧ sh.frame fc body = f := by
  unfold splitTcp at h
  split at h
  next =>
    cases h
    exact ⟨rfl, by simp [FrameShell.frame, be16Bytes]⟩
  next => cases h

/-- A row that a request meets does what the command the request is does (rules R64, R76, R185). -/
theorem exec_of_decodeFc {r : Request} {c i : Instr} (hd : decode r = .ok c) (hw : WellFormed c)
    (hi : decodeFc r = some i) (s : State) : exec c s = exec i s := by
  unfold decodeFc at hi
  rw [hd] at hi
  cases c with
  | validateRtu p => cases hi; exact (exec_rowOfParams ((paramsFit_iff p).mp hw) .rtu s).1.symm
  | validateTcp p => cases hi; exact (exec_rowOfParams ((paramsFit_iff p).mp hw) .tcp s).1.symm
  | encodeRtu p => cases hi; exact (exec_rowOfParams ((paramsFit_iff p).mp hw) .rtu s).2.symm
  | encodeTcp p => cases hi; exact (exec_rowOfParams ((paramsFit_iff p).mp hw) .tcp s).2.symm
  | decodeRtu f =>
    obtain ⟨⟨fc, sh, body⟩, hsplit, rfl⟩ := Option.map_eq_some_iff.mp hi
    obtain ⟨hmode, hframe⟩ := frame_of_splitRtu hsplit
    rw [exec_rowOfFrame, hmode, hframe]
    rfl
  | decodeTcp f =>
    obtain ⟨⟨fc, sh, body⟩, hsplit, rfl⟩ := Option.map_eq_some_iff.mp hi
    obtain ⟨hmode, hframe⟩ := frame_of_splitTcp hsplit
    rw [exec_rowOfFrame, hmode, hframe]
    rfl
  | _ => cases hi

/-- Settles O6: the step runs the command, and the row the request meets does the same. -/
theorem stepRunsFunctionCodeRow : Obligations.StepRunsFunctionCodeRow := by
  intro s r rest i hs hq haccepted hi
  obtain ⟨c, hd, hw⟩ := (accepted_iff r).mp haccepted
  exact (step_run hq hs hd).trans (exec_of_decodeFc hd hw hi _)

/-- Settles O8: each row is refused as its command is. -/
theorem overlongRowOperandIsRefused : Obligations.OverlongRowOperandIsRefused := by
  intro s m unit fc addr qty value coils regs sh body
  simp only [← exec_commandOf (.fc0FWriteMultipleCoils _), ← exec_commandOf (.fc10WriteMultipleRegisters _),
    ← exec_commandOf (.fcUnknown _ _), exec_rowOfFrame]
  have refused : ∀ p : Params, Config.listCap < p.coils.length ∨ Config.listCap < p.regs.length →
      exec (encodeOf m p) s = .refused .operandTooLong ∧ exec (validateOf m p) s = .refused .operandTooLong :=
    fun p h => ⟨exec_encodeOf_of_too_long (not_fits_of_too_long h) m s,
      exec_validateOf_of_too_long (not_fits_of_too_long h) m s⟩
  refine ⟨fun h => refused (writeCoilsParams unit ⟨addr, qty, coils⟩) (Or.inl h),
    fun h => refused (writeRegsParams unit ⟨addr, qty, regs⟩) (Or.inr h),
    fun h => refused (otherParams fc unit ⟨addr, qty, value, coils, regs⟩) h, fun h => ?_⟩
  have hdecode := exec_decodeOf_of_too_long h sh.mode s
  exact ⟨hdecode, hdecode⟩

/-- Settles O29: the lookup of the code fails first, in the commands and in the row that makes them. -/
theorem unsupportedCodeIsReported : Obligations.UnsupportedCodeIsReported := by
  intro m p s hfits hfc t
  obtain ⟨hvalidate, hencode⟩ := exec_of_unsupported hfits hfc m s
  exact ⟨hvalidate, hencode, (exec_commandOf _ s).symm.trans hvalidate, (exec_commandOf _ s).symm.trans hencode⟩

end Sys2Proof.Machine
end

section
/-! The frames ENCODE builds for the READ and WRITE1 shapes and, from the function code rows, for all codes (rules R78,
R103, R151 to R161). -/

namespace Sys2Proof.Machine

/-- The second field of a READ or WRITE1 shape (rules R68, R151 to R156). -/
def secondField (p : Params) : U16 := if p.fc = 0x05 ∨ p.fc = 0x06 then p.value else p.qty

/-- The PDU of a READ or WRITE1 shape (rules R151 to R156). -/
def fixedPdu (p : Params) : List Byte :=
  [p.fc, hi8 p.addr, lo8 p.addr, hi8 (secondField p), lo8 (secondField p)]

theorem pduOf_eq_fixedPdu {p : Params} {f : FnCode} (hf : p.fc = f.toByte) (h0F : p.fc ≠ 0x0F) (h10 : p.fc ≠ 0x10) :
    pduOf f p = fixedPdu p := by
  unfold fixedPdu secondField
  rw [hf] at h0F h10 ⊢
  cases f with
  | writeMultipleCoils => exact absurd rfl h0F
  | writeMultipleRegisters => exact absurd rfl h10
  | _ => rfl

/-- ENCODE of a valid READ or WRITE1 record, in either mode. -/
theorem exec_encode_fixed {p : Params} (hfits : Fits p) (hvalid : Valid p) (h0F : p.fc ≠ 0x0F) (h10 : p.fc ≠ 0x10)
    (s : State) :
    exec (.encodeRtu p) s = .next (s.finish (.ok (.adu (wrapRtu p.unit (fixedPdu p))))) ∧
    exec (.encodeTcp p) s = .next (s.advanceTid.finish (.ok (.adu (wrapTcp s.tid p.unit (fixedPdu p))))) := by
  obtain ⟨f, hf, -⟩ := (valid_iff p).mp hvalid
  rw [← pduOf_eq_fixedPdu (ofByte_some hf) h0F h10]
  exact exec_encode_of_valid hfits hvalid (ofByte_some hf) s

/-- Settles O34: the frame is `wrapRtu` of the fixed PDU. -/
theorem encodeRtuFixedShapes : Obligations.EncodeRtuFixedShapes :=
  fun _ s hfits hvalid h0F h10 => (exec_encode_fixed hfits hvalid h0F h10 s).1

/-- The MBAP length of a READ or WRITE1 shape is 6 (rule R75). -/
theorem wrapTcp_fixedPdu (t : U16) (unit : Byte) (p : Params) :
    wrapTcp t unit (fixedPdu p) = [hi8 t, lo8 t, 0x00, 0x00, 0x00, 0x06, unit] ++ fixedPdu p := by
  rw [wrapTcp_of_length (n := 6) rfl, show hi8 (BitVec.ofNat 16 6) = 0x00 by decide,
    show lo8 (BitVec.ofNat 16 6) = 0x06 by decide]

/-- Settles O35: the frame is `wrapTcp` of the fixed PDU, whose MBAP length is 6. -/
theorem encodeTcpFixedShapes : Obligations.EncodeTcpFixedShapes := by
  intro p s hfits hvalid h0F h10 d
  obtain ⟨-, htcp⟩ := exec_encode_fixed hfits hvalid h0F h10 s
  rw [htcp, wrapTcp_fixedPdu]
  rfl

/-- What the six READ and WRITE1 rows return in a mode, `built` being the state in which a function code's frame has
been returned (rules R131 to R134). -/
def FixedRowsBuild (m : Mode) (unit : Byte) (addr d : U16) (s : State) (built : Byte → State) : Prop :=
  (1 ≤ d.toNat → d.toNat ≤ 2000 →
    exec (.fc01ReadCoils (.encode m unit ⟨addr, d⟩)) s = .next (built 0x01) ∧
    exec (.fc02ReadDiscreteInputs (.encode m unit ⟨addr, d⟩)) s = .next (built 0x02)) ∧
  (1 ≤ d.toNat → d.toNat ≤ 125 →
    exec (.fc03ReadHoldingRegisters (.encode m unit ⟨addr, d⟩)) s = .next (built 0x03) ∧
    exec (.fc04ReadInputRegisters (.encode m unit ⟨addr, d⟩)) s = .next (built 0x04)) ∧
  (d = 0xFF00 ∨ d = 0x0000 → exec (.fc05WriteSingleCoil (.encode m unit ⟨addr, d⟩)) s = .next (built 0x05)) ∧
  exec (.fc06WriteSingleRegister (.encode m unit ⟨addr, d⟩)) s = .next (built 0x06)

/-- The rows return what ENCODE returns for the valid records of their fields. -/
theorem fixedRowsBuild_of_command {m : Mode} {unit : Byte} {addr d : U16} {s : State} {built : Byte → State}
    (h : ∀ p : Params, Fits p → Valid p → p.fc ≠ 0x0F → p.fc ≠ 0x10 → p.unit = unit → p.addr = addr →
      secondField p = d → exec (encodeOf m p) s = .next (built p.fc)) : FixedRowsBuild m unit addr d s built := by
  have fits : ([] : List Bool).length ≤ Config.listCap ∧ ([] : List U16).length ≤ Config.listCap :=
    ⟨Nat.zero_le _, Nat.zero_le _⟩
  have read (fc : Byte) (hfc : fc ≠ 0x0F ∧ fc ≠ 0x10 ∧ ¬ (fc = 0x05 ∨ fc = 0x06))
      (hvalid : Valid (readParams fc unit ⟨addr, d⟩)) :
      exec (encodeOf m (readParams fc unit ⟨addr, d⟩)) s = .next (built fc) := by
    obtain ⟨h0F, h10, hread⟩ := hfc
    exact h _ fits hvalid h0F h10 rfl rfl (if_neg hread)
  have write (fc : Byte) (hfc : fc ≠ 0x0F ∧ fc ≠ 0x10 ∧ (fc = 0x05 ∨ fc = 0x06))
      (hvalid : Valid (writeOneParams fc unit ⟨addr, d⟩)) :
      exec (encodeOf m (writeOneParams fc unit ⟨addr, d⟩)) s = .next (built fc) := by
    obtain ⟨h0F, h10, hwrite⟩ := hfc
    exact h _ fits hvalid h0F h10 rfl rfl (if_pos hwrite)
  refine ⟨fun hlow hhigh => ⟨?fc01, ?fc02⟩, fun hlow hhigh => ⟨?fc03, ?fc04⟩, fun hd => ?fc05, ?fc06⟩
  all_goals rw [← exec_commandOf]
  case fc01 => exact read 0x01 (by decide) (by simp [Valid, readParams, hlow, hhigh])
  case fc02 => exact read 0x02 (by decide) (by simp [Valid, readParams, hlow, hhigh])
  case fc03 => exact read 0x03 (by decide) (by simp [Valid, readParams, hlow, hhigh])
  case fc04 => exact read 0x04 (by decide) (by simp [Valid, readParams, hlow, hhigh])
  case fc05 => exact write 0x05 (by decide) (by simpa [Valid, writeOneParams] using hd)
  case fc06 => exact write 0x06 (by decide) (by simp [Valid, writeOneParams])

/-- Settles O38: each row is its ENCODE.RTU command on a valid record. -/
theorem fixedShapeRowsEncode : Obligations.FixedShapeRowsEncode := by
  intro unit addr d s built
  refine fixedRowsBuild_of_command (m := .rtu) ?_
  rintro p hfits hvalid h0F h10 rfl rfl rfl
  exact encodeRtuFixedShapes p s hfits hvalid h0F h10

/-- Settles O39: each row is its ENCODE.TCP command on a valid record. -/
theorem fixedShapeRowsEncodeTcp : Obligations.FixedShapeRowsEncodeTcp := by
  intro unit addr d s built
  refine fixedRowsBuild_of_command (m := .tcp) ?_
  rintro p hfits hvalid h0F h10 rfl rfl rfl
  exact encodeTcpFixedShapes p s hfits hvalid h0F h10

/-- ENCODE of a valid record puts the PDU between the bytes of its mode's wrapping (rules R69, R70). -/
theorem exec_encodeOf_wraps {p : Params} {f : FnCode} (hfits : Fits p) (hvalid : Valid p) (hf : p.fc = f.toByte)
    (m : Mode) (s : State) : ∃ t front back, exec (encodeOf m p) s = .next t ∧
      t.outbox = s.outbox ++ [.ok (.adu (front ++ pduOf f p ++ back))] ∧
      (m = .rtu → front.length = 1 ∧ back.length = 2) ∧ (m = .tcp → front.length = 7 ∧ back.length = 0) := by
  obtain ⟨hrtu, htcp⟩ := exec_encode_of_valid hfits hvalid hf s
  cases m with
  | rtu => exact ⟨_, [p.unit], _, hrtu, rfl, fun _ => ⟨rfl, rfl⟩, nofun⟩
  | tcp => exact ⟨_, _, [], htcp, by rw [List.append_nil]; rfl, nofun, fun _ => ⟨rfl, rfl⟩⟩

/-- A row that makes an ENCODE of a valid record returns a frame with the code's PDU at its mode's place; `head` is the
front of that PDU, `n` the number of bytes after it. -/
theorem exec_counted_row {i : Instr} {m : Mode} {p : Params} {f : FnCode} {head data : List Byte} {n : Nat}
    (hi : commandOf i = encodeOf m p) (hfits : Fits p) (hvalid : Valid p) (hf : p.fc = f.toByte)
    (hpdu : pduOf f p = head ++ data) (hdata : data.length = n) (s : State) : ∃ t adu, exec i s = .next t ∧
      t.outbox = s.outbox ++ [.ok (.adu adu)] ∧
      (m = .rtu → adu.length = 1 + head.length + n + 2 ∧ (adu.drop 1).take head.length = head) ∧
      (m = .tcp → adu.length = 7 + head.length + n + 0 ∧ (adu.drop 7).take head.length = head) := by
  obtain ⟨t, front, back, ht, hout, hrtu, htcp⟩ := exec_encodeOf_wraps hfits hvalid hf m s
  rw [← hi, exec_commandOf] at ht
  rw [hpdu] at hout
  have hplace : ∀ k, front.length = k → ((front ++ (head ++ data) ++ back).drop k).take head.length = head := by
    rintro _ rfl
    simp
  refine ⟨t, _, ht, hout, fun hm => ?_, fun hm => ?_⟩
  · obtain ⟨hfront, hback⟩ := hrtu hm
    exact ⟨by simp [hfront, hback, hdata]; omega, hplace 1 hfront⟩
  · obtain ⟨hfront, hback⟩ := htcp hm
    exact ⟨by simp [hfront, hback, hdata]; omega, hplace 7 hfront⟩

/-- Settles O40: each row is its ENCODE command on a valid record. -/
theorem countedShapeRowsEncode : Obligations.CountedShapeRowsEncode := by
  intro m unit addr qty coils regs s shell tail
  have hcap := listCap_floor
  refine ⟨fun hlow hhigh hlen => ?coils, fun hlow hhigh hlen => ?regs⟩
  case coils =>
    obtain ⟨t, adu, ht, hout, hrtu, htcp⟩ := exec_counted_row
      (i := .fc0FWriteMultipleCoils (.encode m unit ⟨addr, qty, coils⟩)) (p := writeCoilsParams unit ⟨addr, qty, coils⟩)
      (f := .writeMultipleCoils) (m := m) rfl ⟨by simp [writeCoilsParams]; omega, Nat.zero_le _⟩
      (by simp [Valid, writeCoilsParams, hlow, hhigh, hlen]) rfl rfl (pack_length (coilByteCount qty) coils) s
    refine ⟨t, adu, ht, hout, ?_⟩
    cases m with
    | rtu => exact hrtu rfl
    | tcp => exact htcp rfl
  case regs =>
    obtain ⟨t, adu, ht, hout, hrtu, htcp⟩ := exec_counted_row
      (i := .fc10WriteMultipleRegisters (.encode m unit ⟨addr, qty, regs⟩)) (m := m)
      (p := writeRegsParams unit ⟨addr, qty, regs⟩) (f := .writeMultipleRegisters) rfl
      ⟨Nat.zero_le _, by simp [writeRegsParams]; omega⟩
      (by simp [Valid, writeRegsParams, hlow, hhigh, hlen]) rfl rfl (n := 2 * qty.toNat)
      (by rw [regBytes_length]; simp [writeRegsParams, hlen]) s
    refine ⟨t, adu, ht, hout, ?_⟩
    rw [Nat.mul_comm 2 qty.toNat] at hrtu htcp ⊢
    cases m with
    | rtu => exact hrtu rfl
    | tcp => exact htcp rfl

/-- Settles O42: a frame is what `wrapRtu` appends the CRC to. -/
theorem encodedRtuFramePassesCheck : Obligations.EncodedRtuFramePassesCheck := by
  intro p s hfits hvalid
  obtain ⟨f, hf, -⟩ := (valid_iff p).mp hvalid
  exact ⟨_, (exec_encode_of_valid hfits hvalid (ofByte_some hf) s).1, frameCheckIsZero _⟩

end Sys2Proof.Machine
end

section
/-! The status of DECODE (rules R183, R184, R194, R224), and which violation masks any instruction can raise (rules R131
to R138): a decode raises none, and the checks of a record set only QTY, VALUE and LIST. -/

namespace Sys2Proof.Machine

/-- An answer that is OK where the frame holds the shape, and TRUNCATED where it does not (rule R194). -/
def AnswersBy {α : Type} (fits : Bool) (x : Except Raise α) : Prop :=
  (fits = true → ∃ a, x = .ok a) ∧ (fits = false → x = .error .truncated)

theorem answersBy_ite {α : Type} {fits : Bool} {P : Prop} [Decidable P] (h : fits = true ↔ P) (a : α) :
    AnswersBy fits (if P then .ok a else .error .truncated) := by
  constructor
  · exact fun hfits => ⟨a, if_pos (h.mp hfits)⟩
  · rintro rfl
    exact if_neg fun hP => Bool.false_ne_true (h.mpr hP)

theorem AnswersBy.map {α β : Type} {fits : Bool} {x : Except Raise α} (h : AnswersBy fits x) (g : α → β) :
    AnswersBy fits (x.map g) := by
  obtain ⟨hok, herror⟩ := h
  refine ⟨fun hfits => ?_, fun hfits => ?_⟩
  · obtain ⟨a, rfl⟩ := hok hfits
    exact ⟨g a, rfl⟩
  · rw [herror hfits]
    rfl

theorem decodePdu_eq_map (m : Mode) (shape : Cursor → Except Raise Cursor) (c : Cursor) :
    decodePdu m shape c =
      (shape ((c.emit .func c.pos 1).skip 1)).map fun c' => .segments (c'.remainder.trailer m).segs := by
  unfold decodePdu
  cases shape ((c.emit .func c.pos 1).skip 1) <;> rfl

/-- An unknown function code has no field that could be missing (rule R196). -/
theorem shapeFits_of_unsupported {fc : Byte} (h : fc ∉ supportedCodes) (room : Nat) (bc : Byte) :
    shapeFits fc room bc = true := by
  simp only [supportedCodes, List.mem_cons, List.not_mem_nil, or_false, not_or, BitVec.ofNat_eq_ofNat] at h
  simp [shapeFits, h]

/-- The shape of a function code answers by whether the room up to the bound holds it, from the cursor after the
function code byte (rules R186 to R196). -/
theorem shapeOf_answersBy (fc : Byte) {c : Cursor} (hc : c.pos ≤ c.stop) :
    AnswersBy (shapeFits fc (c.stop - c.pos) (rd8 c.frame (c.pos + 4))) (shapeOf fc c) := by
  have two (second : Kind) : AnswersBy (decide (4 ≤ c.stop - c.pos)) (shapeTwo second c) := by
    rw [shapeTwo_eq]
    exact answersBy_ite (by rw [decide_eq_true_iff]; omega) _
  have counted (run : Nat → Cursor → Cursor) :
      AnswersBy (decide (5 + (rd8 c.frame (c.pos + 4)).toNat ≤ c.stop - c.pos)) (shapeCounted run c) := by
    rw [shapeCounted_eq]
    exact answersBy_ite (by rw [decide_eq_true_iff]; omega) _
  cases hf : FnCode.ofByte fc with
  | none =>
    have hfc := ofByte_none.mp hf
    rw [shapeFits_of_unsupported hfc, shapeOf_of_unsupported hfc]
    exact ⟨fun _ => ⟨c, rfl⟩, nofun⟩
  | some f =>
    rw [ofByte_some hf]
    cases f with
    | readCoils | readDiscreteInputs | readHoldingRegisters | readInputRegisters => exact two .qty
    | writeSingleCoil | writeSingleRegister => exact two .value
    | writeMultipleCoils => exact counted coilRun
    | writeMultipleRegisters => exact counted regRun

/-- DECODE of a frame whose header is read answers by whether the rest holds the function code's shape (rule R224). -/
theorem decodeFrame_answersBy {m : Mode} {f : List Byte} {c : Cursor} (h : header m f = .ok c) :
    AnswersBy (shapeFits (rd8 f c.pos) (c.stop - (c.pos + 1)) (rd8 f (c.pos + 5))) (decodeFrame m f) := by
  obtain ⟨⟨hframe, hstop, -, -, -⟩, hroom, -⟩ := header_ok h
  have hshape := shapeOf_answersBy (rd8 f c.pos) (c := (c.emit .func c.pos 1).skip 1) (hstop ▸ hroom)
  have hdecode : decodeFrame m f = decodePdu m (shapeOf (rd8 f c.pos)) c := by simp only [decodeFrame, h, hframe]
  rw [hdecode, decodePdu_eq_map]
  have hbyte : rd8 f (c.pos + 5) = rd8 c.frame (c.pos + 1 + 4) := by rw [hframe]
  rw [hbyte]
  exact hshape.map _

theorem decodeFrame_of_header_error {m : Mode} {f : List Byte} {e : Raise} (h : header m f = .error e) :
    decodeFrame m f = .error e := by
  simp [decodeFrame, h]

/-- What DECODE returns for a frame within `IN_CAP` that answers by whether it holds its shape. -/
theorem exec_decodeOf_answersBy {m : Mode} {f : List Byte} {fits : Bool} (hlen : f.length ≤ Config.seqCap)
    (h : AnswersBy fits (decodeFrame m f)) (s : State) :
    (fits = false → exec (decodeOf m f) s = .next (s.finish (.raised .truncated))) ∧
    (fits = true → ∃ segs, exec (decodeOf m f) s = .next (s.finish (.ok (.segments segs)))) := by
  obtain ⟨hok, herror⟩ := h
  rw [exec_decodeOf hlen]
  refine ⟨fun hfits => by rw [herror hfits]; rfl, fun hfits => ?_⟩
  obtain ⟨v, hv⟩ := hok hfits
  obtain ⟨segs, rfl, -⟩ := decodeFrame_ok hv
  exact ⟨segs, by rw [hv]; rfl⟩

/-- A header that cannot be read raises its status, which DECODE returns (rules R183, R184). -/
theorem exec_decodeOf_of_header_error {m : Mode} {f : List Byte} {e : Raise} (hlen : f.length ≤ Config.seqCap)
    (h : header m f = .error e) (s : State) : exec (decodeOf m f) s = .next (s.finish (.raised e)) := by
  rw [exec_decodeOf hlen, decodeFrame_of_header_error h]
  rfl

/-- Settles O44: the header's three errors by length, then the shape's answer. -/
theorem decodeRtuStatus : Obligations.DecodeRtuStatus := by
  intro f s hlen raised fits
  have short (e : Raise) (h : rtuHeader f = .error e) : raised e :=
    exec_decodeOf_of_header_error (m := .rtu) hlen h s
  have answers (h4 : 4 ≤ f.length) : AnswersBy fits (decodeFrame .rtu f) := by
    have h : AnswersBy (shapeFits _ (f.length - 2 - 2) _) (decodeFrame .rtu f) :=
      decodeFrame_answersBy (m := .rtu) (rtuHeader_eq h4)
    rwa [Nat.sub_sub] at h
  have long (h4 : 4 ≤ f.length) := exec_decodeOf_answersBy hlen (answers h4) s
  refine ⟨fun h => short _ ?_, fun h => short _ ?_, fun h => short _ ?_, fun h4 => (long h4).1, fun h4 => (long h4).2⟩
  · rw [rtuHeader, if_pos (by omega)]
  · rw [rtuHeader, if_neg (by omega), if_pos (by omega)]
  · rw [rtuHeader, if_neg (by omega), if_neg (by omega), if_pos (by omega)]

/-- Settles O45: the header's two errors by length, then the shape's answer. -/
theorem decodeTcpStatus : Obligations.DecodeTcpStatus := by
  intro f s hlen raised fits
  have short (e : Raise) (h : tcpHeader f = .error e) : raised e :=
    exec_decodeOf_of_header_error (m := .tcp) hlen h s
  have long (h8 : 8 ≤ f.length) := exec_decodeOf_answersBy hlen
    (decodeFrame_answersBy (m := .tcp) (tcpHeader_eq h8)) s
  refine ⟨fun h => short _ ?_, fun h => short _ ?_, fun h8 => (long h8).1, fun h8 => (long h8).2⟩
  · rw [tcpHeader, if_pos (by omega)]
  · rw [tcpHeader, if_neg (by omega), if_pos (by omega)]

/-- A raised status whose mask, if it has one, is not empty and has only the bits QTY, VALUE and LIST (rule R137). -/
def FieldBitsOnly : Raise → Prop
  | .paramInvalid mask => mask ≠ 0 ∧ mask &&& 0xE3 = 0
  | _ => True

/-- The checks of every function code set only QTY, VALUE and LIST (rules R131 to R138). -/
theorem checkParams_fieldBits (f : FnCode) (p : Params) : checkParams f p &&& 0xE3 = 0 := by
  have hqty (most : Nat) (q : U16) : checkQty most q &&& 0xE3 = 0 := by rw [checkQty_eq]; split <;> rfl
  have hvalue (v : U16) : checkCoilValue v &&& 0xE3 = 0 := by rw [checkCoilValue_eq]; split <;> rfl
  have hlist (n : Nat) (q : U16) : checkList n q &&& 0xE3 = 0 := by rw [checkList_eq]; split <;> rfl
  have hor {a b : Byte} (ha : a &&& 0xE3 = 0) (hb : b &&& 0xE3 = 0) : (a ||| b) &&& 0xE3 = 0 := by
    rw [BitVec.and_comm, BitVec.and_or_distrib_left, BitVec.and_comm _ a, BitVec.and_comm _ b, ha, hb]
    rfl
  cases f with
  | readCoils | readDiscreteInputs | readHoldingRegisters | readInputRegisters =>
    simpa [checkParams] using hqty _ p.qty
  | writeSingleCoil => simpa [checkParams] using hvalue p.value
  | writeSingleRegister => simp [checkParams]
  | writeMultipleCoils => simpa [checkParams] using hor (hqty 1968 p.qty) (hlist p.coils.length p.qty)
  | writeMultipleRegisters => simpa [checkParams] using hor (hqty 123 p.qty) (hlist p.regs.length p.qty)

/-- The status of a record outside the validation table (rules R130, R137). -/
theorem recordRaise_fieldBitsOnly {p : Params} (h : ¬ Valid p) : FieldBitsOnly (recordRaise p) := by
  rw [valid_iff] at h
  unfold recordRaise
  cases hf : FnCode.ofByte p.fc with
  | none => trivial
  | some f => exact ⟨fun hc => h ⟨f, hf, hc⟩, checkParams_fieldBits f p⟩

theorem header_error_fieldBitsOnly {m : Mode} {f : List Byte} {e : Raise} (h : header m f = .error e) :
    FieldBitsOnly e := by
  cases m with
  | rtu =>
    unfold header rtuHeader at h
    dsimp only at h
    split at h
    · cases h; trivial
    · split at h
      · cases h; trivial
      · split at h
        · cases h; trivial
        · cases h
  | tcp =>
    unfold header tcpHeader at h
    dsimp only at h
    split at h
    · cases h; trivial
    · split at h
      · cases h; trivial
      · cases h

/-- A decode raises no violation mask (rule R224). -/
theorem decodeFrame_error_fieldBitsOnly {m : Mode} {f : List Byte} {e : Raise} (h : decodeFrame m f = .error e) :
    FieldBitsOnly e := by
  cases hc : header m f with
  | error e' =>
    cases (decodeFrame_of_header_error hc).symm.trans h
    exact header_error_fieldBitsOnly hc
  | ok c =>
    obtain ⟨hok, herror⟩ := decodeFrame_answersBy hc
    cases hfits : shapeFits _ _ _ with
    | true =>
      obtain ⟨v, hv⟩ := hok hfits
      cases hv.symm.trans h
    | false =>
      cases (herror hfits).symm.trans h
      trivial

theorem useCommand_cases {α : Type} (fc : Byte) (record : Byte → α → Params) (u : PduUse α) :
    (∃ m p, useCommand fc record u = validateOf m p) ∨ (∃ m p, useCommand fc record u = encodeOf m p) ∨
    ∃ m f, useCommand fc record u = decodeOf m f := by
  cases u with
  | validate m unit x => exact Or.inl ⟨m, _, rfl⟩
  | encode m unit x => exact Or.inr (Or.inl ⟨m, _, rfl⟩)
  | decode sh body => exact Or.inr (Or.inr ⟨sh.mode, _, rfl⟩)

/-- The four commands of rule R61, the modes aside. -/
theorem commandOf_cases (i : Instr) : (∃ data, commandOf i = .crc16 data) ∨ (∃ m p, commandOf i = validateOf m p) ∨
    (∃ m p, commandOf i = encodeOf m p) ∨ ∃ m f, commandOf i = decodeOf m f := by
  cases i with
  | crc16 data => exact Or.inl ⟨data, rfl⟩
  | validateRtu p => exact Or.inr (Or.inl ⟨.rtu, p, rfl⟩)
  | validateTcp p => exact Or.inr (Or.inl ⟨.tcp, p, rfl⟩)
  | encodeRtu p => exact Or.inr (Or.inr (Or.inl ⟨.rtu, p, rfl⟩))
  | encodeTcp p => exact Or.inr (Or.inr (Or.inl ⟨.tcp, p, rfl⟩))
  | decodeRtu f => exact Or.inr (Or.inr (Or.inr ⟨.rtu, f, rfl⟩))
  | decodeTcp f => exact Or.inr (Or.inr (Or.inr ⟨.tcp, f, rfl⟩))
  | _ => exact Or.inr (useCommand_cases _ _ _)

/-- Whatever status an instruction raises has only the field bits in its mask: what it does is done by a command, and a
command raises a record's status or a decode's. -/
theorem exec_raises_fieldBitsOnly {i : Instr} {s t : State} {e : Raise} (h : exec i s = .next t)
    (hout : t.outbox = s.outbox ++ [.raised e]) : FieldBitsOnly e := by
  rw [← exec_commandOf] at h
  rcases commandOf_cases i with ⟨data, hi⟩ | ⟨m, p, hi⟩ | ⟨m, p, hi⟩ | ⟨m, f, hi⟩
  · rw [hi] at h
    obtain ⟨-, rfl⟩ := perform_next.mp h
    simp at hout
  · rw [hi, exec_validateOf_eq] at h
    obtain ⟨-, rfl⟩ := perform_next.mp h
    by_cases hvalid : Valid p
    · simp [validateParams_of_valid hvalid] at hout
    · obtain rfl : recordRaise p = e := by simpa [validateParams_of_not_valid hvalid, raise_eq_finish] using hout
      exact recordRaise_fieldBitsOnly hvalid
  · rw [hi, exec_encodeOf_eq] at h
    obtain ⟨-, rfl⟩ := perform_next.mp h
    by_cases hvalid : Valid p
    · obtain ⟨adu, hadu⟩ := (encodeParams_builds_iff m p s).mpr hvalid
      simp [hadu] at hout
    · obtain rfl : recordRaise p = e := by simpa [encodeParams_of_not_valid hvalid, raise_eq_finish] using hout
      exact recordRaise_fieldBitsOnly hvalid
  · rw [hi, exec_decodeOf_eq] at h
    obtain ⟨-, rfl⟩ := perform_next.mp h
    cases hd : decodeFrame m f with
    | ok v => simp [hd] at hout
    | error e' =>
      obtain rfl : e' = e := by simpa [hd, raise_eq_finish] using hout
      exact decodeFrame_error_fieldBitsOnly hd

/-- Settles O32: `exec_raises_fieldBitsOnly` for PARAM_INVALID. -/
theorem maskHasOnlyFieldBits : Obligations.MaskHasOnlyFieldBits :=
  fun _ _ _ _ h hout => exec_raises_fieldBitsOnly h hout

end Sys2Proof.Machine
end

section
/-! The segments DECODE shows (rules R181, R186 to R198): what stands between a frame's header and its trailer, by the
shape of the function code, in either shell. -/

namespace Sys2Proof.Machine

/-- A segment of any kind but Data and CRC shows a field (rule R181). -/
theorem segmentAt_field {k : Kind} (hdata : k ≠ .data) (hcrc : k ≠ .crc) (f : List Byte) (off len : Nat) :
    segmentAt f k off len = ⟨k, off, len, some (fieldValue f off len)⟩ := by
  cases k with
  | data => exact absurd rfl hdata
  | crc => exact absurd rfl hcrc
  | _ => rfl

/-- Settles O53: a decode's segments are `segmentAt` of their own kind and place, with their kind's width. -/
theorem segmentValuesComeFromTheFrame : Obligations.SegmentValuesComeFromTheFrame := by
  intro m f s segs h g hg
  obtain ⟨-, hd⟩ := exec_decodeOf_ok_iff.mp h
  obtain ⟨_, hv, -, hsegs⟩ := decodeFrame_ok hd
  cases hv
  obtain ⟨hself, hwidth⟩ := hsegs g hg
  have hvalue : g.value = segmentValue f g.kind g.off g.len := congrArg Segment.value hself
  have hfield (hdata : g.kind ≠ .data) (hcrc : g.kind ≠ .crc) : g.value = some (fieldValue f g.off g.len) :=
    congrArg Segment.value (hself.trans (segmentAt_field hdata hcrc f g.off g.len))
  refine ⟨hwidth, fun hk => ?data, fun hk => ?crc, fun hdata hcrc hlen => ?byte, fun hdata hcrc hlen => ?word⟩
  case data => rw [hvalue, hk]; rfl
  case crc => rw [hvalue, hk, segmentValue, le16_eq_be16]; rfl
  case byte => rw [hfield hdata hcrc, hlen]; rfl
  case word => rw [hfield hdata hcrc, hlen]; rfl

/-- A one-byte field in the body of a shell's frame. -/
theorem fieldValue_body_one (sh : FrameShell) (fc : Byte) (body : List Byte) {i : Nat} (h : i < body.length) :
    fieldValue (sh.frame fc body) (pduAt sh + 1 + i) 1 = (body.getD i 0).setWidth 16 := by
  rw [fieldValue, if_pos rfl, rd8_body sh fc body h]

/-- A two-byte field in the body of a shell's frame (rule R71). -/
theorem fieldValue_body_two (sh : FrameShell) (fc : Byte) (body : List Byte) {i : Nat} (h : i + 1 < body.length) :
    fieldValue (sh.frame fc body) (pduAt sh + 1 + i) 2 = be16 (body.getD i 0) (body.getD (i + 1) 0) := by
  rw [fieldValue, if_neg (by decide), rd16, rd8_body sh fc body (by omega), Nat.add_assoc _ i 1,
    rd8_body sh fc body h]

/-- A shell's frame as segments, with these between the function code and the trailer (rules R183, R184, R197). -/
def shellSegments (sh : FrameShell) (fc : Byte) (body : List Byte) (fields : List Segment) : List Segment :=
  headerSegments sh ++ [⟨.func, pduAt sh, 1, some (fc.setWidth 16)⟩] ++ fields ++
    trailerSegments (pduAt sh + 1 + body.length) sh

/-- The value DECODE returns with these segments between the function code and the trailer. -/
def shownSegments (sh : FrameShell) (fc : Byte) (body : List Byte) (fields : List Segment) : Value :=
  .segments (shellSegments sh fc body fields)

/-- What a shape leaves of a shell's frame is shown after the fields it has read (rules R195, R197). -/
theorem decodeFrame_of_shapeOf {sh : FrameShell} {fc : Byte} {body : List Byte} {c : Cursor} {fields : List Segment}
    {n : Nat} (hs : shapeOf fc (pduCursor sh fc body) = .ok c) (hsegs : c.segs = (pduCursor sh fc body).segs ++ fields)
    (hpos : c.pos = pduAt sh + 1 + n) (hstop : c.stop = pduAt sh + 1 + body.length) (hn : n ≤ body.length) :
    decodeFrame sh.mode (sh.frame fc body) =
      .ok (shownSegments sh fc body (fields ++ remainderSegments (pduAt sh + 1 + n) (body.length - n))) := by
  obtain ⟨hrem, -⟩ := remainder_eq c (by omega)
  have hroom : c.stop - c.pos = body.length - n := by omega
  rw [decodeFrame_shell, hs, Except.map, pduValue, hrem, hroom, hsegs, hpos, pduCursor_segs, shownSegments,
    shellSegments]
  simp only [List.append_assoc]

/-- The two fields of a READ or WRITE1 shape in a shell's frame (rules R186 to R191). -/
theorem segments_two (sh : FrameShell) (fc : Byte) {second : Kind} (hk : second = .qty ∨ second = .value)
    (d3 d2 d1 d0 : Byte) (rest : List Byte) :
    [segmentAt (sh.frame fc ([d3, d2, d1, d0] ++ rest)) .addr (pduAt sh + 1) 2,
      segmentAt (sh.frame fc ([d3, d2, d1, d0] ++ rest)) second (pduAt sh + 3) 2] =
    [⟨.addr, pduAt sh + 1, 2, some (be16 d3 d2)⟩, ⟨second, pduAt sh + 3, 2, some (be16 d1 d0)⟩] := by
  have haddr := fieldValue_body_two sh fc ([d3, d2, d1, d0] ++ rest) (i := 0) (by simp)
  have hsecond := fieldValue_body_two sh fc ([d3, d2, d1, d0] ++ rest) (i := 2) (by simp)
  rw [segmentAt_field (k := second) (by rcases hk with rfl | rfl <;> decide) (by rcases hk with rfl | rfl <;> decide),
    segmentAt_field (by decide) (by decide)]
  exact congrArg₂ (fun v w => [Segment.mk .addr _ _ (some v), Segment.mk second _ _ (some w)]) haddr hsecond

/-- DECODE of a shell's frame of a two-field shape (rules R186 to R191, R195). -/
theorem decodeFrame_shell_two (sh : FrameShell) {fc : Byte} {second : Kind} (hs : shapeOf fc = shapeTwo second)
    (hk : second = .qty ∨ second = .value) (d3 d2 d1 d0 : Byte) (extra : List Byte) :
    decodeFrame sh.mode (sh.frame fc ([d3, d2, d1, d0] ++ extra)) = .ok (shownSegments sh fc ([d3, d2, d1, d0] ++ extra)
      ([⟨.addr, pduAt sh + 1, 2, some (be16 d3 d2)⟩, ⟨second, pduAt sh + 3, 2, some (be16 d1 d0)⟩] ++
        remainderSegments (pduAt sh + 5) extra.length)) := by
  have hlen : ([d3, d2, d1, d0] ++ extra).length = 4 + extra.length := by simp; omega
  have hshape := congrFun hs (pduCursor sh fc ([d3, d2, d1, d0] ++ extra))
  rw [shapeTwo_eq, pduCursor_pos, pduCursor_stop, hlen, if_pos (by omega)] at hshape
  rw [decodeFrame_of_shapeOf (n := 4) hshape (List.append_assoc _ [_] [_]) rfl rfl (by omega),
    hlen, Nat.add_sub_cancel_left]
  exact congrArg (fun fields => Except.ok (shownSegments sh fc _ (fields ++ _)))
    (segments_two sh fc hk d3 d2 d1 d0 extra)

/-- A two-field shape of a frame with fewer than four bytes to read is truncated (rule R182). -/
theorem decodeFrame_shell_two_truncated (sh : FrameShell) {fc : Byte} {second : Kind}
    (hs : shapeOf fc = shapeTwo second) {body : List Byte} (h : body.length < 4) :
    decodeFrame sh.mode (sh.frame fc body) = .error .truncated := by
  rw [decodeFrame_shell, hs, shapeTwo_eq, pduCursor_pos, pduCursor_stop, if_neg (by omega)]
  rfl

/-- An instruction that decodes a shell's frame within `IN_CAP` returns what the decoder answers (rules R42, R180). -/
theorem exec_decode_shell {i : Instr} {sh : FrameShell} {fc : Byte} {body : List Byte} {x : Except Raise Value}
    (hi : commandOf i = decodeOf sh.mode (sh.frame fc body)) (hlen : sh.overhead + body.length ≤ Config.seqCap)
    (hd : decodeFrame sh.mode (sh.frame fc body) = x) (s : State) : exec i s = .next (s.finishExcept x) := by
  rw [← exec_commandOf, hi, exec_decodeOf (by rwa [frame_length]), hd]

/-- The second field of each READ and WRITE1 shape (rules R186 to R191). -/
theorem shapeOf_eq_shapeTwo {fc : Byte} (h : fc ∈ ([0x01, 0x02, 0x03, 0x04, 0x05, 0x06] : List Byte)) :
    shapeOf fc = shapeTwo (if fc = 0x05 ∨ fc = 0x06 then .value else .qty) := by
  simp only [List.mem_cons, List.not_mem_nil, or_false] at h
  rcases h with rfl | rfl | rfl | rfl | rfl | rfl <;> rfl

theorem secondKind_cases (fc : Byte) : (if fc = 0x05 ∨ fc = 0x06 then Kind.value else Kind.qty) = .qty ∨
    (if fc = 0x05 ∨ fc = 0x06 then Kind.value else Kind.qty) = .value := by
  split
  · exact Or.inr rfl
  · exact Or.inl rfl

/-- Settles O46: the frame is an RTU shell's, and its shape has two fields. -/
theorem decodeRtuFixedShapes : Obligations.DecodeRtuFixedShapes := by
  intro unit fc a1 a0 d1 d0 lo hi extra s hfc hlen second
  have hd := decodeFrame_shell_two (.rtu unit lo hi) (shapeOf_eq_shapeTwo hfc) (secondKind_cases fc) a1 a0 d1 d0 extra
  refine (exec_decode_shell (i := .decodeRtu _) rfl (by simp [FrameShell.overhead]; omega) hd s).trans ?_
  simp [shownSegments, shellSegments, headerSegments, trailerSegments, pduAt, second, State.finish]
  omega

/-- Settles O47: the frame is a TCP shell's, and its shape has two fields. -/
theorem decodeTcpFixedShapes : Obligations.DecodeTcpFixedShapes := by
  intro t1 t0 p1 p0 l1 l0 unit fc a1 a0 d1 d0 extra s hfc hlen second
  have hd := decodeFrame_shell_two (.tcp (be16 t1 t0) (be16 p1 p0) (be16 l1 l0) unit) (shapeOf_eq_shapeTwo hfc)
    (secondKind_cases fc) a1 a0 d1 d0 extra
  have hi : commandOf (.decodeTcp ([t1, t0, p1, p0, l1, l0, unit, fc, a1, a0, d1, d0] ++ extra)) =
      decodeOf (FrameShell.tcp (be16 t1 t0) (be16 p1 p0) (be16 l1 l0) unit).mode
        ((FrameShell.tcp (be16 t1 t0) (be16 p1 p0) (be16 l1 l0) unit).frame fc ([a1, a0, d1, d0] ++ extra)) := by
    simp [commandOf, decodeOf, FrameShell.mode, FrameShell.frame, be16Bytes]
  refine (exec_decode_shell hi (by simp [FrameShell.overhead]; omega) hd s).trans ?_
  simp [shownSegments, shellSegments, headerSegments, trailerSegments, pduAt, second, State.finish]

/-- Settles O50: each row decodes its frame as the command does. -/
theorem rowsDecodeTheirFrames : Obligations.RowsDecodeTheirFrames := by
  intro sh body s hlen returns shown
  refine ⟨?shown, ?truncated, ?unknown⟩
  case shown =>
    rintro a1 a0 d1 d0 extra rfl fields
    have two {i : Instr} {fc : Byte} {second : Kind}
        (hi : commandOf i = decodeOf sh.mode (sh.frame fc ([a1, a0, d1, d0] ++ extra)))
        (hs : shapeOf fc = shapeTwo second) (hk : second = .qty ∨ second = .value) :
        exec i s = .next (returns (shown fc (fields second))) :=
      exec_decode_shell hi hlen (decodeFrame_shell_two sh hs hk a1 a0 d1 d0 extra) s
    exact ⟨two rfl rfl (.inl rfl), two rfl rfl (.inl rfl), two rfl rfl (.inl rfl), two rfl rfl (.inl rfl),
      two rfl rfl (.inr rfl), two rfl rfl (.inr rfl)⟩
  case truncated =>
    intro hshort
    have two {i : Instr} {fc : Byte} {second : Kind} (hi : commandOf i = decodeOf sh.mode (sh.frame fc body))
        (hs : shapeOf fc = shapeTwo second) : exec i s = .next (returns (.raised .truncated)) :=
      exec_decode_shell hi hlen (decodeFrame_shell_two_truncated sh hs hshort) s
    exact ⟨two rfl (second := .qty) rfl, two rfl (second := .qty) rfl, two rfl (second := .qty) rfl,
      two rfl (second := .qty) rfl, two rfl (second := .value) rfl, two rfl (second := .value) rfl⟩
  case unknown =>
    exact fun fc hfc => exec_decode_shell rfl hlen (decodeFrame_shell_unknown sh hfc body) s

end Sys2Proof.Machine
end

section
/-! The segments of 0x0F and 0x10 (rules R192 to R195): the fields, then the data bytes as runs. -/

namespace Sys2Proof.Machine

/-- The segments of the data bytes of 0x0F and 0x10, `n` of them from `start` on (rules R192, R193). -/
def dataSegments (fc : Byte) (f : List Byte) (start n : Nat) : List Segment :=
  if fc = 0x0F then runSegments f .coilData start 1 n
  else runSegments f .regValue start 2 (n / 2) ++ if n % 2 = 1 then [⟨.data, start + n - 1, 1, none⟩] else []

theorem coilRun_eq (n : Nat) (c : Cursor) :
    coilRun n c = { c with segs := c.segs ++ dataSegments 0x0F c.frame c.pos n } := rfl

theorem regRun_eq (n : Nat) (c : Cursor) :
    regRun n c = { c with segs := c.segs ++ dataSegments 0x10 c.frame c.pos n } := by
  unfold regRun dataSegments
  rw [if_neg (show ¬ (0x10 : Byte) = 0x0F by decide)]
  by_cases hodd : n % 2 = 1
  · rw [if_pos hodd, if_pos hodd, ← List.append_assoc]
    rfl
  · rw [if_neg hodd, if_neg hodd, List.append_nil]
    rfl

/-- A counted shape that fits in the frame emits its three fields and its data (rules R192 to R194). -/
theorem shapeOf_counted {fc : Byte} (hfc : fc = 0x0F ∨ fc = 0x10) {c : Cursor} {n : Nat}
    (hn : (rd8 c.frame (c.pos + 4)).toNat = n) (hroom : c.pos + 5 + n ≤ c.stop) :
    shapeOf fc c = .ok { c with
      pos := c.pos + 5 + n, segs := (countedHead c).segs ++ dataSegments fc c.frame (c.pos + 5) n } := by
  have counted {run : Nat → Cursor → Cursor}
      (hrun : ∀ d, run n d = { d with segs := d.segs ++ dataSegments fc d.frame d.pos n }) :
      shapeCounted run c = .ok { c with
        pos := c.pos + 5 + n, segs := (countedHead c).segs ++ dataSegments fc c.frame (c.pos + 5) n } := by
    rw [shapeCounted_eq, hn, if_pos hroom, hrun]
    rfl
  rcases hfc with rfl | rfl
  · exact counted (coilRun_eq n)
  · exact counted (regRun_eq n)

/-- The three fields of a counted shape (rules R192, R193). -/
def countedFields (sh : FrameShell) (d4 d3 d2 d1 bc : Byte) : List Segment :=
  [⟨.addr, pduAt sh + 1, 2, some (be16 d4 d3)⟩, ⟨.qty, pduAt sh + 3, 2, some (be16 d2 d1)⟩,
    ⟨.byteCount, pduAt sh + 5, 1, some (bc.setWidth 16)⟩]

theorem countedHead_segs (sh : FrameShell) (fc d4 d3 d2 d1 bc : Byte) (rest : List Byte) :
    (countedHead (pduCursor sh fc (d4 :: d3 :: d2 :: d1 :: bc :: rest))).segs =
      (pduCursor sh fc (d4 :: d3 :: d2 :: d1 :: bc :: rest)).segs ++ countedFields sh d4 d3 d2 d1 bc := by
  have htwo := segments_two sh fc (second := .qty) (.inl rfl) d4 d3 d2 d1 (bc :: rest)
  have hcount := fieldValue_body_one sh fc (d4 :: d3 :: d2 :: d1 :: bc :: rest) (i := 4) (by simp)
  have hthree : segmentAt (sh.frame fc (d4 :: d3 :: d2 :: d1 :: bc :: rest)) .byteCount (pduAt sh + 5) 1 =
      ⟨.byteCount, pduAt sh + 5, 1, some (bc.setWidth 16)⟩ :=
    congrArg (fun v => Segment.mk .byteCount _ _ (some v)) hcount
  simp only [List.cons_append, List.nil_append, List.cons.injEq, and_true] at htwo
  obtain ⟨haddr, hqty⟩ := htwo
  rw [countedFields, ← haddr, ← hqty, ← hthree]
  simp [countedHead, Cursor.emit, Cursor.skip]

/-- DECODE of a shell's frame of a counted shape with as many data bytes as its count says (rules R192 to R195). -/
theorem decodeFrame_shell_counted (sh : FrameShell) {fc : Byte} (hfc : fc = 0x0F ∨ fc = 0x10) (d4 d3 d2 d1 bc : Byte)
    {data : List Byte} (hdata : data.length = bc.toNat) (extra : List Byte) :
    decodeFrame sh.mode (sh.frame fc ([d4, d3, d2, d1, bc] ++ data ++ extra)) =
      .ok (shownSegments sh fc ([d4, d3, d2, d1, bc] ++ data ++ extra) (countedFields sh d4 d3 d2 d1 bc ++
        dataSegments fc (sh.frame fc ([d4, d3, d2, d1, bc] ++ data ++ extra)) (pduAt sh + 6) bc.toNat ++
        remainderSegments (pduAt sh + 6 + bc.toNat) extra.length)) := by
  have hlen : ([d4, d3, d2, d1, bc] ++ data ++ extra).length = 5 + bc.toNat + extra.length := by simp [hdata]; omega
  have hpos : pduAt sh + 1 + (5 + bc.toNat) = pduAt sh + 6 + bc.toNat := by omega
  have hbc : rd8 (sh.frame fc ([d4, d3, d2, d1, bc] ++ data ++ extra)) (pduAt sh + 1 + 4) = bc :=
    rd8_body sh fc _ (i := 4) (by omega)
  have hshape := shapeOf_counted hfc (c := pduCursor sh fc ([d4, d3, d2, d1, bc] ++ data ++ extra))
    (congrArg BitVec.toNat hbc) (by rw [pduCursor_pos, pduCursor_stop, hlen]; omega)
  have hdecode := decodeFrame_of_shapeOf (n := 5 + bc.toNat) hshape
    ((congrArg (· ++ _) (countedHead_segs sh fc d4 d3 d2 d1 bc (data ++ extra))).trans (List.append_assoc _ _ _))
    (Nat.add_assoc _ 5 _) rfl (by omega)
  rwa [hlen, Nat.add_sub_cancel_left, hpos] at hdecode

/-- The function code byte's place by mode and by shell (rules R69, R70). -/
theorem pduAt_of_mode (sh : FrameShell) : (match sh.mode with | .rtu => 1 | .tcp => 7) = pduAt sh := by
  cases sh <;> rfl

/-- Settles O48: the frame is its shell's, and the header and the trailer are the shell's. -/
theorem decodeCountedShapes : Obligations.DecodeCountedShapes := by
  intro sh fc a1 a0 q1 q0 bc data extra s hfc hdata body f at0 hlen
  have hat : at0 = pduAt sh := pduAt_of_mode sh
  have hd := decodeFrame_shell_counted sh hfc a1 a0 q1 q0 bc hdata extra
  clear_value at0
  subst hat
  refine ⟨headerSegments sh, trailerSegments (pduAt sh + 1 + body.length) sh, ?returns, ?rtu, ?tcp⟩
  case returns =>
    rw [exec_decodeOf hlen, hd]
    simp [shownSegments, shellSegments, countedFields, dataSegments, State.finish, f, body]
  case rtu => cases sh with
    | rtu unit lo hi => exact fun _ => ⟨rfl, rfl⟩
    | tcp tid proto len unit => nofun
  case tcp => cases sh with
    | rtu unit lo hi => nofun
    | tcp tid proto len unit => exact fun _ => ⟨rfl, rfl⟩

end Sys2Proof.Machine
end

section
/-! The round trip (rule R164): what ENCODE builds from a valid record is a shell's frame, and the segments DECODE shows
of its body give back the fields of the record that the function code uses. -/

namespace Sys2Proof.Machine

theorem valuesOf_append (k : Kind) (xs ys : List Segment) : valuesOf k (xs ++ ys) = valuesOf k xs ++ valuesOf k ys :=
  List.filterMap_append

theorem valuesOf_nil (k : Kind) : valuesOf k [] = [] := rfl

/-- Segments of other kinds have no part in the values of a kind. -/
theorem valuesOf_eq_nil {k : Kind} {segs : List Segment} (h : ∀ g ∈ segs, g.kind ≠ k) : valuesOf k segs = [] := by
  rw [valuesOf, List.filterMap_eq_nil_iff]
  intro g hg
  exact if_neg (h g hg)

/-- The values of a run of fields are read where the run puts them (rules R192, R193). -/
theorem valuesOf_runSegments {k : Kind} (hdata : k ≠ .data) (hcrc : k ≠ .crc) (f : List Byte) (start w n : Nat) :
    valuesOf k (runSegments f k start w n) = (List.range n).map fun j => fieldValue f (start + w * j) w := by
  simp [valuesOf, runSegments, segmentAt_field hdata hcrc, List.filterMap_map]

/-- The kinds of segments a shape emits. -/
def shapeKinds : List Kind := [.addr, .qty, .value, .byteCount, .coilData, .regValue]

/-- The segments of a shape give back the record of a function code (rule R164). -/
structure ShowsRecord (p : Params) (fields : List Segment) : Prop where
  kinds : ∀ g ∈ fields, g.kind ∈ shapeKinds
  addr : valuesOf .addr fields = [p.addr]
  qty : valuesOf .qty fields = if p.fc = 0x05 ∨ p.fc = 0x06 then [] else [p.qty]
  value : valuesOf .value fields = if p.fc = 0x05 ∨ p.fc = 0x06 then [p.value] else []
  regs : valuesOf .regValue fields = if p.fc = 0x10 then p.regs else []
  coils : p.fc = 0x0F → ∀ i, i < p.qty.toNat →
    ((valuesOf .coilData fields).getD (i / 8) 0).getLsbD (i % 8) = p.coils.getD i false

/-- A kind that no shape emits has no values in a shape's segments. -/
theorem ShowsRecord.no_values {p : Params} {fields : List Segment} (h : ShowsRecord p fields) {k : Kind}
    (hk : k ∉ shapeKinds) : valuesOf k fields = [] :=
  valuesOf_eq_nil fun g hg heq => hk (heq ▸ h.kinds g hg)

/-- The segments DECODE shows of a frame built from a record, in either shell (rule R164). -/
def ReadsBack (p : Params) (body : List Byte) : Prop :=
  ∀ sh : FrameShell, ∃ fields, ShowsRecord p fields ∧
    decodeFrame sh.mode (sh.frame p.fc body) = .ok (shownSegments sh p.fc body fields)

theorem ShowsRecord.of_read {p : Params} (hfc : ¬ (p.fc = 0x05 ∨ p.fc = 0x06)) (h0F : p.fc ≠ 0x0F) (h10 : p.fc ≠ 0x10)
    (off off' : Nat) : ShowsRecord p [⟨.addr, off, 2, some p.addr⟩, ⟨.qty, off', 2, some p.qty⟩] where
  kinds := by simp [shapeKinds]
  addr := rfl
  qty := (if_neg hfc).symm
  value := (if_neg hfc).symm
  regs := (if_neg h10).symm
  coils h := absurd h h0F

theorem ShowsRecord.of_write {p : Params} (hfc : p.fc = 0x05 ∨ p.fc = 0x06) (h0F : p.fc ≠ 0x0F) (h10 : p.fc ≠ 0x10)
    (off off' : Nat) : ShowsRecord p [⟨.addr, off, 2, some p.addr⟩, ⟨.value, off', 2, some p.value⟩] where
  kinds := by simp [shapeKinds]
  addr := rfl
  qty := (if_pos hfc).symm
  value := (if_pos hfc).symm
  regs := (if_neg h10).symm
  coils h := absurd h h0F

/-- The round trip of a READ or WRITE1 shape. -/
theorem readsBack_fixed {p : Params} (hfc : p.fc ∈ ([0x01, 0x02, 0x03, 0x04, 0x05, 0x06] : List Byte))
    (h0F : p.fc ≠ 0x0F) (h10 : p.fc ≠ 0x10) :
    ReadsBack p [hi8 p.addr, lo8 p.addr, hi8 (secondField p), lo8 (secondField p)] := by
  intro sh
  have hd := decodeFrame_shell_two sh (shapeOf_eq_shapeTwo hfc) (secondKind_cases p.fc) (hi8 p.addr) (lo8 p.addr)
    (hi8 (secondField p)) (lo8 (secondField p)) []
  rw [be16_hi8_lo8, be16_hi8_lo8] at hd
  refine ⟨_, ?_, hd⟩
  by_cases hwrite : p.fc = 0x05 ∨ p.fc = 0x06
  · rw [if_pos hwrite, show secondField p = p.value from if_pos hwrite]
    exact .of_write hwrite h0F h10 _ _
  · rw [if_neg hwrite, show secondField p = p.qty from if_neg hwrite]
    exact .of_read hwrite h0F h10 _ _

/-- The record of a counted shape is shown by its fields and by data segments of the two data kinds, whose values are
the registers or hold the coils. -/
theorem ShowsRecord.of_counted {p : Params} (hfc : p.fc = 0x0F ∨ p.fc = 0x10) (sh : FrameShell) (bc : Byte)
    {segs : List Segment} (hkinds : ∀ g ∈ segs, g.kind = .coilData ∨ g.kind = .regValue)
    (hregs : valuesOf .regValue segs = if p.fc = 0x10 then p.regs else [])
    (hcoils : p.fc = 0x0F → ∀ i, i < p.qty.toNat →
      ((valuesOf .coilData segs).getD (i / 8) 0).getLsbD (i % 8) = p.coils.getD i false) :
    ShowsRecord p (countedFields sh (hi8 p.addr) (lo8 p.addr) (hi8 p.qty) (lo8 p.qty) bc ++ segs) := by
  have hread : ¬ (p.fc = 0x05 ∨ p.fc = 0x06) := by rcases hfc with h | h <;> rw [h] <;> decide
  have none {k : Kind} (hcoil : .coilData ≠ k) (hreg : .regValue ≠ k) : valuesOf k segs = [] :=
    valuesOf_eq_nil fun g hg => by rcases hkinds g hg with h | h <;> rw [h] <;> assumption
  unfold countedFields
  rw [be16_hi8_lo8, be16_hi8_lo8]
  refine {
    kinds := ?kinds
    addr := (valuesOf_append _ _ _).trans (congrArg ([p.addr] ++ ·) (none (by decide) (by decide)))
    qty := ?qty
    value := ?value
    regs := (valuesOf_append _ _ _).trans hregs
    coils := fun h => (valuesOf_append .coilData _ _).symm ▸ hcoils h }
  case kinds =>
    intro g hg
    rcases List.mem_append.mp hg with hg | hg
    · simp only [List.mem_cons, List.not_mem_nil, or_false] at hg
      rcases hg with rfl | rfl | rfl <;> simp [shapeKinds]
    · rcases hkinds g hg with h | h <;> simp [h, shapeKinds]
  case qty =>
    rw [if_neg hread, valuesOf_append, none (by decide) (by decide)]
    rfl
  case value =>
    rw [if_neg hread, valuesOf_append, none (by decide) (by decide)]
    rfl

/-- The data bytes of a counted shape in a shell's frame. -/
theorem rd8_data (sh : FrameShell) (fc d4 d3 d2 d1 bc : Byte) {data : List Byte} {i : Nat} (h : i < data.length) :
    rd8 (sh.frame fc ([d4, d3, d2, d1, bc] ++ data)) (pduAt sh + 6 + i) = data.getD i 0 := by
  have hbody := rd8_body sh fc ([d4, d3, d2, d1, bc] ++ data) (i := 5 + i) (by simp; omega)
  rw [show pduAt sh + 6 + i = pduAt sh + 1 + (5 + i) by omega, hbody]
  exact (List.getD_append_right _ _ _ _ (by simp)).trans (congrArg (data.getD · 0) (Nat.add_sub_cancel_left 5 i))

/-- The coils of a run of data bytes that packs them (rules R73, R192). -/
theorem coils_of_runSegments (sh : FrameShell) (fc d4 d3 d2 d1 bc : Byte) (n : Nat) (coils : List Bool) {i : Nat}
    (hi : i < 8 * n) :
    ((valuesOf .coilData (runSegments (sh.frame fc ([d4, d3, d2, d1, bc] ++ pack n coils)) .coilData (pduAt sh + 6)
      1 n)).getD (i / 8) 0).getLsbD (i % 8) = coils.getD i false := by
  have hbyte : i / 8 < n := by omega
  have hfield := rd8_data sh fc d4 d3 d2 d1 bc (data := pack n coils) (i := i / 8) (by rwa [pack_length])
  rw [valuesOf_runSegments (by decide) (by decide), List.getD_eq_getElem?_getD, List.getElem?_map,
    List.getElem?_range hbyte, Option.map_some, Option.getD_some, Nat.one_mul, fieldValue, if_pos rfl, hfield,
    BitVec.getLsbD_setWidth, pack_getLsbD n coils hi]
  simp
  omega

/-- The registers of a run of data bytes that holds them (rules R158, R193). -/
theorem regs_of_runSegments (sh : FrameShell) (fc d4 d3 d2 d1 bc : Byte) (regs : List U16) :
    valuesOf .regValue (runSegments (sh.frame fc ([d4, d3, d2, d1, bc] ++ regBytes regs)) .regValue (pduAt sh + 6) 2
      regs.length) = regs := by
  rw [valuesOf_runSegments (by decide) (by decide)]
  refine List.ext_getElem (by simp) fun j hj hj' => ?_
  obtain ⟨hhi, hlo⟩ := regBytes_getD regs hj'
  have hfirst := rd8_data sh fc d4 d3 d2 d1 bc (data := regBytes regs) (i := 2 * j) (by rw [regBytes_length]; omega)
  have hsecond := rd8_data sh fc d4 d3 d2 d1 bc (data := regBytes regs) (i := 2 * j + 1)
    (by rw [regBytes_length]; omega)
  rw [List.getElem_map, List.getElem_range, fieldValue, if_neg (by decide), rd16, hfirst, Nat.add_assoc _ (2 * j) 1,
    hsecond, hhi, hlo, be16_hi8_lo8, List.getD_eq_getElem _ _ hj']

/-- The round trip of a counted shape (rules R192 to R194). -/
theorem readsBack_counted {p : Params} (hfc : p.fc = 0x0F ∨ p.fc = 0x10) {bc : Byte} {data : List Byte}
    (hdata : data.length = bc.toNat)
    (h : ∀ sh : FrameShell, ShowsRecord p (countedFields sh (hi8 p.addr) (lo8 p.addr) (hi8 p.qty) (lo8 p.qty) bc ++
      dataSegments p.fc (sh.frame p.fc ([hi8 p.addr, lo8 p.addr, hi8 p.qty, lo8 p.qty, bc] ++ data)) (pduAt sh + 6)
        bc.toNat)) :
    ReadsBack p ([hi8 p.addr, lo8 p.addr, hi8 p.qty, lo8 p.qty, bc] ++ data) := by
  intro sh
  have hd := decodeFrame_shell_counted sh hfc (hi8 p.addr) (lo8 p.addr) (hi8 p.qty) (lo8 p.qty) bc hdata []
  rw [List.append_nil] at hd
  exact ⟨_, h sh, hd.trans (by rw [List.length_nil, remainderSegments, if_pos rfl, List.append_nil])⟩

theorem kind_of_mem_runSegments {f : List Byte} {k : Kind} {start w n : Nat} {g : Segment}
    (hg : g ∈ runSegments f k start w n) : g.kind = k := by
  obtain ⟨j, -, rfl⟩ := List.mem_map.mp hg
  rfl

/-- The round trip of 0x0F (rules R157, R192). -/
theorem readsBack_coils {p : Params} (hfc : p.fc = 0x0F) (hqty : p.qty.toNat ≤ 1968) :
    ReadsBack p ([hi8 p.addr, lo8 p.addr, hi8 p.qty, lo8 p.qty, BitVec.ofNat 8 (coilByteCount p.qty)] ++
      pack (coilByteCount p.qty) p.coils) := by
  have hbc : (BitVec.ofNat 8 (coilByteCount p.qty)).toNat = coilByteCount p.qty :=
    Nat.mod_eq_of_lt (by unfold coilByteCount; omega)
  refine readsBack_counted (.inl hfc) (by rw [pack_length, hbc]) fun sh =>
    .of_counted (.inl hfc) sh _ ?kinds ?regs ?coils
  all_goals rw [hbc, dataSegments, if_pos hfc]
  case kinds => exact fun g hg => .inl (kind_of_mem_runSegments hg)
  case regs =>
    rw [if_neg (by rw [hfc]; decide)]
    exact valuesOf_eq_nil fun g hg => by rw [kind_of_mem_runSegments hg]; decide
  case coils =>
    exact fun _ i hi => coils_of_runSegments sh _ _ _ _ _ _ _ _ (by unfold coilByteCount; omega)

/-- The round trip of 0x10 (rules R158, R193). -/
theorem readsBack_regs {p : Params} (hfc : p.fc = 0x10) (hqty : p.qty.toNat ≤ 123)
    (hlen : p.regs.length = p.qty.toNat) :
    ReadsBack p ([hi8 p.addr, lo8 p.addr, hi8 p.qty, lo8 p.qty, BitVec.ofNat 8 (regByteCount p.qty)] ++
      regBytes p.regs) := by
  have hbc : (BitVec.ofNat 8 (regByteCount p.qty)).toNat = 2 * p.regs.length := by
    rw [hlen, Nat.mul_comm]
    exact Nat.mod_eq_of_lt (by unfold regByteCount; omega)
  have h0F : p.fc ≠ 0x0F := by rw [hfc]; decide
  refine readsBack_counted (.inr hfc) (by rw [regBytes_length, hbc]) fun sh =>
    .of_counted (.inr hfc) sh _ ?kinds ?regs fun h => absurd h h0F
  all_goals rw [hbc, dataSegments, if_neg h0F, if_neg (show ¬ 2 * p.regs.length % 2 = 1 by omega), List.append_nil,
    Nat.mul_div_cancel_left _ (by decide)]
  case kinds => exact fun g hg => .inr (kind_of_mem_runSegments hg)
  case regs => rw [if_pos hfc, regs_of_runSegments]

/-- The PDU of a valid record is its function code and a body that reads back as the record. -/
theorem exists_readsBack_of_valid {p : Params} (h : Valid p) :
    ∃ f body, p.fc = f.toByte ∧ pduOf f p = p.fc :: body ∧ ReadsBack p body := by
  obtain ⟨f, hf, -⟩ := (valid_iff p).mp h
  replace hf := ofByte_some hf
  by_cases h0F : p.fc = 0x0F
  · have hqty : p.qty.toNat ≤ 1968 := by simp [Valid, h0F] at h; omega
    exact ⟨.writeMultipleCoils, _, h0F, by rw [h0F]; rfl, readsBack_coils h0F hqty⟩
  by_cases h10 : p.fc = 0x10
  · have hqty : p.qty.toNat ≤ 123 := by simp [Valid, h10] at h; omega
    have hlen := h.regs_length h10
    exact ⟨.writeMultipleRegisters, _, h10, by rw [h10, pduOf, pduFc10, ← hlen, List.take_length]; rfl,
      readsBack_regs h10 hqty hlen⟩
  have hfc : p.fc ∈ ([0x01, 0x02, 0x03, 0x04, 0x05, 0x06] : List Byte) := by
    rw [hf] at h0F h10 ⊢
    cases f with
    | writeMultipleCoils => exact absurd rfl h0F
    | writeMultipleRegisters => exact absurd rfl h10
    | _ => decide
  exact ⟨f, _, hf, pduOf_eq_fixedPdu hf h0F h10, readsBack_fixed hfc h0F h10⟩

/-- The shell ENCODE.RTU puts around a PDU: the unit id and the CRC (rule R160). -/
def rtuShell (unit fc : Byte) (body : List Byte) : FrameShell :=
  .rtu unit (lo8 (crc16 ([unit, fc] ++ body))) (hi8 (crc16 ([unit, fc] ++ body)))

theorem wrapRtu_eq_frame (unit fc : Byte) (body : List Byte) :
    wrapRtu unit (fc :: body) = (rtuShell unit fc body).frame fc body := rfl

/-- The shell ENCODE.TCP puts around a PDU: the MBAP header (rule R161). -/
def tcpShell (t : U16) (unit fc : Byte) (body : List Byte) : FrameShell :=
  .tcp t 0x0000 (mbapLength (fc :: body)) unit

theorem wrapTcp_eq_frame (t : U16) (unit fc : Byte) (body : List Byte) :
    wrapTcp t unit (fc :: body) = (tcpShell t unit fc body).frame fc body := rfl

/-- A shell's own segments have kinds that no shape emits. -/
theorem kind_of_mem_shell {sh : FrameShell} {stop : Nat} {g : Segment}
    (hg : g ∈ headerSegments sh ∨ g ∈ trailerSegments stop sh) : g.kind ∉ shapeKinds := by
  cases sh with
  | rtu unit lo hi =>
    simp only [headerSegments, trailerSegments, List.mem_cons, List.not_mem_nil, or_false] at hg
    rcases hg with rfl | rfl <;> simp [shapeKinds]
  | tcp tid proto len unit =>
    simp only [headerSegments, trailerSegments, List.mem_cons, List.not_mem_nil, or_false] at hg
    rcases hg with rfl | rfl | rfl | rfl <;> simp [shapeKinds]

/-- The values of a shape's kinds are those of the fields. -/
theorem valuesOf_shellSegments_field {k : Kind} (hk : k ∈ shapeKinds) (sh : FrameShell) (fc : Byte) (body : List Byte)
    (fields : List Segment) : valuesOf k (shellSegments sh fc body fields) = valuesOf k fields := by
  have hne : .func ≠ k := by rintro rfl; revert hk; decide
  have hfunc : valuesOf k [⟨.func, pduAt sh, 1, some (fc.setWidth 16)⟩] = [] :=
    valuesOf_eq_nil fun g hg => by rwa [List.mem_singleton.mp hg]
  have hheader : valuesOf k (headerSegments sh) = [] :=
    valuesOf_eq_nil fun g hg heq => kind_of_mem_shell (stop := 0) (.inl hg) (heq ▸ hk)
  have htrailer : valuesOf k (trailerSegments (pduAt sh + 1 + body.length) sh) = [] :=
    valuesOf_eq_nil fun g hg heq => kind_of_mem_shell (.inr hg) (heq ▸ hk)
  simp only [shellSegments, valuesOf_append, hfunc, hheader, htrailer, List.nil_append, List.append_nil]

/-- The values of the other kinds are those of the header, the function code and the trailer. -/
theorem ShowsRecord.valuesOf_shell {p : Params} {fields : List Segment} (h : ShowsRecord p fields) {k : Kind}
    (hk : k ∉ shapeKinds) (sh : FrameShell) (fc : Byte) (body : List Byte) :
    valuesOf k (shellSegments sh fc body fields) = valuesOf k (shellSegments sh fc body []) := by
  simp only [shellSegments, valuesOf_append, h.no_values hk, valuesOf_nil]

/-- A frame that shows a record gives back its fields, the unit id and the header aside (rule R164). -/
theorem ShowsRecord.shell {p : Params} {fields : List Segment} (h : ShowsRecord p fields) (sh : FrameShell)
    (body : List Byte) :
    valuesOf .func (shellSegments sh p.fc body fields) = [p.fc.setWidth 16] ∧
    valuesOf .addr (shellSegments sh p.fc body fields) = [p.addr] ∧
    valuesOf .qty (shellSegments sh p.fc body fields) = (if p.fc = 0x05 ∨ p.fc = 0x06 then [] else [p.qty]) ∧
    valuesOf .value (shellSegments sh p.fc body fields) = (if p.fc = 0x05 ∨ p.fc = 0x06 then [p.value] else []) ∧
    valuesOf .regValue (shellSegments sh p.fc body fields) = (if p.fc = 0x10 then p.regs else []) ∧
    (p.fc = 0x0F → ∀ i, i < p.qty.toNat →
      ((valuesOf .coilData (shellSegments sh p.fc body fields)).getD (i / 8) 0).getLsbD (i % 8) =
        p.coils.getD i false) := by
  refine ⟨?func, ?addr, ?qty, ?value, ?regs, ?coils⟩
  case func =>
    rw [h.valuesOf_shell (by decide)]
    cases sh <;> rfl
  case addr => rw [valuesOf_shellSegments_field (by decide), h.addr]
  case qty => rw [valuesOf_shellSegments_field (by decide), h.qty]
  case value => rw [valuesOf_shellSegments_field (by decide), h.value]
  case regs => rw [valuesOf_shellSegments_field (by decide), h.regs]
  case coils => rw [valuesOf_shellSegments_field (by decide)]; exact h.coils

/-- The PDU of a valid record has at most 252 bytes (rule R78). -/
theorem pduOf_length_le {p : Params} {f : FnCode} (h : Valid p) (hf : p.fc = f.toByte) : (pduOf f p).length ≤ 252 := by
  obtain ⟨g, hg, hc⟩ := (valid_iff p).mp h
  obtain rfl : f = g := toByte_inj (hf.symm.trans (ofByte_some hg))
  exact (pduOf_length_eq hf hc).trans_le (pduLength_le h)

/-- A frame around a PDU of at most 252 bytes is within `IN_CAP` (rules R10, R78). -/
theorem frame_length_le_seqCap (sh : FrameShell) {fc : Byte} {body : List Byte} (h : (fc :: body).length ≤ 252) :
    (sh.frame fc body).length ≤ Config.seqCap := by
  have hfloor := seqCap_floor
  rw [List.length_cons] at h
  rw [frame_length]
  cases sh <;> simp only [FrameShell.overhead] <;> omega

/-- What DECODE returns for a frame around the body of a PDU that ENCODE has built. -/
theorem exec_decode_readsBack {p : Params} {body : List Byte} (h : ReadsBack p body)
    (hlen : (p.fc :: body).length ≤ 252) (sh : FrameShell) (s : State) : ∃ fields, ShowsRecord p fields ∧
    exec (decodeOf sh.mode (sh.frame p.fc body)) s = .next (s.finish (.ok (shownSegments sh p.fc body fields))) := by
  obtain ⟨fields, hfields, hd⟩ := h sh
  exact ⟨fields, hfields, exec_decodeOf_ok_iff.mpr ⟨frame_length_le_seqCap sh hlen, hd⟩⟩

/-- All but the CRC of an RTU frame. -/
theorem take_rtu_frame (unit lo hi fc : Byte) (body : List Byte) :
    ((FrameShell.rtu unit lo hi).frame fc body).take (((FrameShell.rtu unit lo hi).frame fc body).length - 2) =
      [unit, fc] ++ body := by
  simp [FrameShell.frame]

/-- Settles O54: the frame is an RTU shell's, its body reads back, and its trailer is the CRC. -/
theorem roundTripRtu : Obligations.RoundTripRtu := by
  intro p s hfits hvalid
  obtain ⟨f, body, hf, hpdu, hbody⟩ := exists_readsBack_of_valid hvalid
  obtain ⟨hrtu, -⟩ := exec_encode_of_valid hfits hvalid hf s
  have hlen := pduOf_length_le hvalid hf
  rw [hpdu] at hrtu hlen
  rw [wrapRtu_eq_frame] at hrtu
  obtain ⟨fields, hfields, hdecode⟩ := exec_decode_readsBack hbody hlen (rtuShell p.unit p.fc body)
    (s.finish (.ok (.adu ((rtuShell p.unit p.fc body).frame p.fc body))))
  obtain ⟨hfunc, haddr, hqty, hvalue, hregs, hcoils⟩ := hfields.shell (rtuShell p.unit p.fc body) body
  refine ⟨_, _, _, _, hrtu, rfl, hdecode, rfl, ?slave, hfunc, haddr, hqty, hvalue, hregs, hcoils, ?crc⟩
  case slave => exact hfields.valuesOf_shell (by decide) _ _ _
  case crc =>
    rw [hfields.valuesOf_shell (by decide), rtuShell, take_rtu_frame]
    exact congrArg ([·]) (be16_hi8_lo8 _)

/-- Settles O55: the frame is a TCP shell's, its body reads back, and its header holds the id drawn and the MBAP
length. -/
theorem roundTripTcp : Obligations.RoundTripTcp := by
  intro p s hfits hvalid
  obtain ⟨f, body, hf, hpdu, hbody⟩ := exists_readsBack_of_valid hvalid
  obtain ⟨-, htcp⟩ := exec_encode_of_valid hfits hvalid hf s
  have hlen := pduOf_length_le hvalid hf
  rw [hpdu] at htcp hlen
  rw [wrapTcp_eq_frame] at htcp
  obtain ⟨fields, hfields, hdecode⟩ := exec_decode_readsBack hbody hlen (tcpShell s.tid p.unit p.fc body)
    (s.advanceTid.finish (.ok (.adu ((tcpShell s.tid p.unit p.fc body).frame p.fc body))))
  obtain ⟨hfunc, haddr, hqty, hvalue, hregs, hcoils⟩ := hfields.shell (tcpShell s.tid p.unit p.fc body) body
  have hmbap : ((tcpShell s.tid p.unit p.fc body).frame p.fc body).length - 6 = (p.fc :: body).length + 1 := by
    rw [← wrapTcp_eq_frame, wrapTcp_length]
    rfl
  have hlength : valuesOf .length (shellSegments (tcpShell s.tid p.unit p.fc body) p.fc body fields) =
      [mbapLength (p.fc :: body)] := hfields.valuesOf_shell (by decide) _ _ _
  rw [mbapLength, ← hmbap] at hlength
  refine ⟨_, _, _, _, htcp, rfl, hdecode, rfl, ?tid, ?proto, hlength, ?unitId, hfunc, haddr, hqty, hvalue, hregs,
    hcoils⟩
  all_goals exact hfields.valuesOf_shell (by decide) _ _ _

end Sys2Proof.Machine
end

section
/-! Hexadecimal text and the high/low split (rules R111 to R115, R199): digits are written and read back, and a byte's
two digits are its token. -/

namespace Sys2Proof.Machine

/-- The number that a text of hexadecimal digits denotes, most significant digit first (rule R111). -/
def readHex (acc : Nat) (text : List Char) : Nat :=
  text.foldl (fun acc c => 16 * acc + (hexDigitValue c).getD 0) acc

/-- An uppercase hexadecimal digit (rule R111). -/
def IsUpperHex (c : Char) : Prop := (hexDigitValue c).isSome = true ∧ c.toNat < 97

theorem hexDigitValue_hexDigit {n : Nat} (h : n < 16) : hexDigitValue (hexDigit n) = some n :=
  (by decide : ∀ k : Fin 16, hexDigitValue (hexDigit k) = some k.val) ⟨n, h⟩

theorem isUpperHex_hexDigit {n : Nat} (h : n < 16) : IsUpperHex (hexDigit n) :=
  ⟨by rw [hexDigitValue_hexDigit h]; rfl, (by decide : ∀ k : Fin 16, (hexDigit k).toNat < 97) ⟨n, h⟩⟩

theorem readHex_hexDigit {n : Nat} (h : n < 16) (acc : Nat) : readHex acc [hexDigit n] = 16 * acc + n := by
  simp [readHex, hexDigitValue_hexDigit h]

theorem readHex_append (acc : Nat) (a b : List Char) : readHex acc (a ++ b) = readHex (readHex acc a) b :=
  List.foldl_append

/-- With enough fuel the digits written in front of a text are those of the number. -/
theorem hexDigitsAux_eq {fuel n : Nat} (h : n < fuel) (acc : List Char) :
    ∃ digits, hexDigitsAux fuel n acc = digits ++ acc ∧ readHex 0 digits = n ∧ ∀ c ∈ digits, IsUpperHex c := by
  induction fuel generalizing n acc with
  | zero => omega
  | succ fuel ih =>
    unfold hexDigitsAux
    by_cases hn : n < 16
    · rw [if_pos hn]
      exact ⟨[hexDigit n], rfl, by rw [readHex_hexDigit hn, Nat.mul_zero, Nat.zero_add],
        by simpa using isUpperHex_hexDigit hn⟩
    · have hlow : n % 16 < 16 := Nat.mod_lt _ (by decide)
      obtain ⟨digits, heq, hread, hupper⟩ := ih (n := n / 16) (by omega) (hexDigit (n % 16) :: acc)
      rw [if_neg hn]
      refine ⟨digits ++ [hexDigit (n % 16)], by simp [heq], ?_, ?_⟩
      · rw [readHex_append, hread, readHex_hexDigit hlow, Nat.div_add_mod]
      · simpa [or_imp, forall_and] using ⟨hupper, isUpperHex_hexDigit hlow⟩

/-- Padding zeros add nothing to the number. -/
theorem readHex_replicate_zero (k : Nat) : readHex 0 (List.replicate k '0') = 0 := by
  induction k with
  | zero => rfl
  | succ k ih => exact ih

/-- Settles O56: padding zeros, then the digits of `hexDigitsAux_eq`. -/
theorem formatHexReadsBack : Obligations.FormatHexReadsBack := by
  intro n width
  obtain ⟨digits, heq, hread, hupper⟩ := hexDigitsAux_eq (Nat.lt_succ_self n) []
  rw [List.append_nil] at heq
  have htext : formatNat n width = List.replicate (width - digits.length) '0' ++ digits := by
    rw [formatNat, hexDigits, ← heq]
  refine ⟨formatNat n width, rfl, ?length, ?upper, ?value⟩
  case length =>
    rw [htext, List.length_append, List.length_replicate]
    omega
  case upper =>
    intro c hc
    rw [htext] at hc
    rcases List.mem_append.mp hc with hzero | hdigit
    · rw [List.eq_of_mem_replicate hzero]
      exact ⟨by decide, by decide⟩
    · exact hupper c hdigit
  case value =>
    change readHex 0 (formatNat n width) = n
    rw [htext, readHex_append, readHex_replicate_zero, hread]

/-- The two digits of a byte (rules R111, R199). -/
theorem formatNat_byte (b : Byte) : formatNat b.toNat 2 = [hexDigit (b.toNat / 16), hexDigit (b.toNat % 16)] := by
  have hlt := b.isLt
  generalize b.toNat = n at hlt ⊢
  unfold formatNat hexDigits hexDigitsAux
  by_cases hn : n < 16
  · rw [if_pos hn, Nat.div_eq_of_lt hn, Nat.mod_eq_of_lt hn]
    rfl
  · obtain ⟨k, rfl⟩ : ∃ k, n = k + 1 := ⟨n - 1, by omega⟩
    rw [if_neg hn, hexDigitsAux, if_pos (by omega)]
    rfl

/-- Two digits are read as the byte they write; neither is a base mark (rule R112). -/
theorem parseHexToken_digits {a b : Nat} (ha : a < 16) (hb : b < 16) :
    parseHexToken [hexDigit a, hexDigit b] = some (BitVec.ofNat 8 (16 * a + b)) :=
  (by decide : ∀ a b : Fin 16,
    parseHexToken [hexDigit a, hexDigit b] = some (BitVec.ofNat 8 (16 * a.val + b.val))) ⟨a, ha⟩ ⟨b, hb⟩

theorem parseHexToken_formatNat (b : Byte) : parseHexToken (formatNat b.toNat 2) = some b := by
  have hlt := b.isLt
  rw [formatNat_byte, parseHexToken_digits (by omega) (Nat.mod_lt _ (by decide)), Nat.div_add_mod, BitVec.ofNat_toNat,
    BitVec.setWidth_eq]

/-- A word without whitespace is gathered whole (rule R113). -/
theorem tokensAux_append {w : List Char} (h : ∀ c ∈ w, isBlank c = false) (rest word : List Char) :
    tokensAux (w ++ rest) word = tokensAux rest (w.reverse ++ word) := by
  induction w generalizing word with
  | nil => rfl
  | cons c w ih =>
    obtain ⟨hc, hw⟩ := List.forall_mem_cons.mp h
    rw [List.cons_append, tokensAux, hc, if_neg (by decide), ih hw, List.reverse_cons, List.append_assoc]
    rfl

/-- Words joined by single spaces are the tokens of the text (rules R113, R199). -/
theorem tokens_intercalate {ws : List (List Char)} (h : ∀ w ∈ ws, w ≠ [] ∧ ∀ c ∈ w, isBlank c = false) :
    tokens (List.intercalate [' '] ws) = ws := by
  induction ws with
  | nil => rfl
  | cons w ws ih =>
    obtain ⟨⟨hne, hblank⟩, hws⟩ := List.forall_mem_cons.mp h
    have hword : w.reverse.isEmpty = false := by simpa using hne
    cases ws with
    | nil =>
      have hone : List.intercalate [' '] [w] = w ++ [] := rfl
      rw [hone, tokens, tokensAux_append hblank, tokensAux, List.append_nil, hword, if_neg (by decide),
        List.reverse_reverse]
    | cons v ws =>
      have hmore : List.intercalate [' '] (w :: v :: ws) = w ++ ' ' :: List.intercalate [' '] (v :: ws) := rfl
      rw [hmore, tokens, tokensAux_append hblank, tokensAux, if_pos (by decide), List.append_nil, hword,
        if_neg (by decide), List.reverse_reverse]
      exact congrArg (w :: ·) (ih hws)

/-- The two digits of a byte are a word (rule R113). -/
theorem formatNat_byte_isWord (b : Byte) : formatNat b.toNat 2 ≠ [] ∧ ∀ c ∈ formatNat b.toNat 2, isBlank c = false := by
  have hlt := b.isLt
  have hblank {n : Nat} (h : n < 16) : isBlank (hexDigit n) = false :=
    (by decide : ∀ k : Fin 16, isBlank (hexDigit k) = false) ⟨n, h⟩
  rw [formatNat_byte]
  refine ⟨nofun, ?_⟩
  simp only [List.mem_cons, List.not_mem_nil, or_false]
  rintro c (rfl | rfl)
  · exact hblank (by omega)
  · exact hblank (Nat.mod_lt _ (by decide))

/-- Settles O57: the tokens of the text are the bytes' words, and each is read as its byte. -/
theorem hexTextReadsBack : Obligations.HexTextReadsBack := by
  intro bytes
  have hwords : ∀ w ∈ bytes.map fun b => formatNat b.toNat 2, w ≠ [] ∧ ∀ c ∈ w, isBlank c = false := by
    intro w hw
    obtain ⟨b, -, rfl⟩ := List.mem_map.mp hw
    exact formatNat_byte_isWord b
  rw [parseHexText, hexBytes, tokens_intercalate hwords, convertAll_eq_some, List.map_map]
  exact List.map_congr_left fun b _ => parseHexToken_formatNat b

/-- The two bytes of a number below 65536 (rules R12, R115). -/
theorem be16Bytes_ofNat {n : Nat} (h : n ≤ 65535) :
    be16Bytes (BitVec.ofNat 16 n) = [BitVec.ofNat 8 (n / 256), BitVec.ofNat 8 (n % 256)] := by
  have hhi : hi8 (BitVec.ofNat 16 n) = BitVec.ofNat 8 (n / 256) := by
    apply BitVec.eq_of_toNat_eq
    simp [hi8, BitVec.extractLsb'_toNat, Nat.shiftRight_eq_div_pow]
    omega
  have hlo : lo8 (BitVec.ofNat 16 n) = BitVec.ofNat 8 (n % 256) := by
    apply BitVec.eq_of_toNat_eq
    simp [lo8, BitVec.extractLsb'_toNat]
  rw [be16Bytes, hhi, hlo]

/-- A number out of range is split as 0 (rule R116). -/
theorem decToHighLowBytes_out_of_range {n : Int} (h : n < 0 ∨ 65535 < n) :
    decToHighLowBytes (.int n) = some [0x00, 0x00] := by
  cases n with
  | ofNat k =>
    have hk : ¬ k ≤ 65535 := by simp only [Int.ofNat_eq_natCast] at h; omega
    simp only [decToHighLowBytes, if_neg hk]
  | negSucc k => rfl

/-- Settles O58: the split in range by its two bytes, elsewhere by the clamp. -/
theorem highLowSplitClamps : Obligations.HighLowSplitClamps := by
  refine ⟨fun n hlow hhigh => ?_, fun n h => decToHighLowBytes_out_of_range h, rfl⟩
  obtain ⟨k, rfl⟩ := Int.eq_ofNat_of_zero_le hlow
  have hk : k ≤ 65535 := by omega
  have hsplit : decToHighLowBytes (.int k) = some (be16Bytes (BitVec.ofNat 16 k)) := congrArg some (if_pos hk)
  rw [hsplit, be16Bytes_ofNat hk]
  rfl

/-- Settles O59: the host issues what it parses. -/
theorem invalidTextIssuesNoCommand : Obligations.InvalidTextIssuesNoCommand := by
  intro cmd text s
  refine ⟨fun h => ?_, fun bytes h => ?_⟩
  · rw [State.issueText, h]
  · rw [State.issueText, h]
    rfl

end Sys2Proof.Machine
end

section
/-! A user's numbers (rule R257): each field takes the integers of its range and keeps the number, and the record is
converted exactly if every number fits. -/

namespace Sys2Proof.Machine

/-- The number fits a field whose greatest value is `most`. -/
def FitsField (most : Nat) (v : HostNumber) : Prop := ∃ n : Nat, n ≤ most ∧ v = .int n

theorem naturalOfNumber_isSome (most : Nat) (v : HostNumber) :
    (naturalOfNumber most v).isSome = true ↔ FitsField most v := by
  simp only [Option.isSome_iff_exists, naturalOfNumber_eq_some, FitsField]

theorem byteOfNumber_isSome (v : HostNumber) : (byteOfNumber v).isSome = true ↔ FitsField 255 v := by
  rw [byteOfNumber, Option.isSome_map, naturalOfNumber_isSome]

theorem fieldOfNumber_isSome (v : HostNumber) : (fieldOfNumber v).isSome = true ↔ FitsField 65535 v := by
  rw [fieldOfNumber, Option.isSome_map, naturalOfNumber_isSome]

theorem bitOfNumber_isSome (v : HostNumber) : (bitOfNumber v).isSome = true ↔ FitsField 1 v := by
  rw [bitOfNumber, Option.isSome_map, naturalOfNumber_isSome]

/-- A number below `2 ^ w` is kept by a word of `w` bits. -/
theorem ofNat_of_naturalOfNumber {w most : Nat} (hmost : most < 2 ^ w) {v : HostNumber} {b : BitVec w}
    (h : (naturalOfNumber most v).map (BitVec.ofNat w) = some b) : v = .int b.toNat := by
  obtain ⟨n, hn, rfl⟩ := Option.map_eq_some_iff.mp h
  obtain ⟨hle, rfl⟩ := naturalOfNumber_eq_some.mp hn
  rw [BitVec.toNat_ofNat, Nat.mod_eq_of_lt (by omega)]

theorem byteOfNumber_keeps {v : HostNumber} {b : Byte} (h : byteOfNumber v = some b) : v = .int b.toNat :=
  ofNat_of_naturalOfNumber (by decide) h

theorem fieldOfNumber_keeps {v : HostNumber} {w : U16} (h : fieldOfNumber v = some w) : v = .int w.toNat :=
  ofNat_of_naturalOfNumber (by decide) h

theorem bitOfNumber_keeps {v : HostNumber} {b : Bool} (h : bitOfNumber v = some b) : v = .int (if b then 1 else 0) := by
  obtain ⟨n, hn, rfl⟩ := Option.map_eq_some_iff.mp h
  obtain ⟨hle, rfl⟩ := naturalOfNumber_eq_some.mp hn
  have hn01 : n = 0 ∨ n = 1 := by omega
  rcases hn01 with rfl | rfl <;> rfl

/-- A list is converted exactly if every element is (rule R113). -/
theorem convertAll_isSome {α β : Type} (convert : α → Option β) (xs : List α) :
    (convertAll convert xs).isSome = true ↔ ∀ x ∈ xs, (convert x).isSome = true := by
  rw [← not_iff_not, Bool.not_eq_true, Option.isSome_eq_false_iff, Option.isNone_iff_eq_none, convertAll_eq_none]
  simp

/-- A converted list keeps its elements if the conversion of each does. -/
theorem convertAll_keeps {α β : Type} {convert : α → Option β} {back : β → α}
    (hback : ∀ {x y}, convert x = some y → x = back y) {xs : List α} {ys : List β}
    (h : convertAll convert xs = some ys) : xs = ys.map back := by
  rw [convertAll_eq_some] at h
  induction xs generalizing ys with
  | nil => rw [List.map_eq_nil_iff.mp h.symm, List.map_nil]
  | cons x xs ih =>
    cases ys with
    | nil => cases h
    | cons y ys =>
      obtain ⟨hx, hxs⟩ := List.cons_eq_cons.mp h
      rw [List.map_cons, ← hback hx, ← ih hxs]

/-- Every number of a user's record fits its field (rules R63, R257). -/
def AllFit (u : UserParams) : Prop :=
  FitsField 255 u.unit ∧ FitsField 255 u.fc ∧ FitsField 65535 u.addr ∧ FitsField 65535 u.qty ∧ FitsField 65535 u.value ∧
    (∀ v ∈ u.coils, FitsField 1 v) ∧ ∀ v ∈ u.regs, FitsField 65535 v

/-- The record of a user's numbers is made of its converted fields. -/
theorem paramsOfNumbers_eq_some {u : UserParams} {p : Params} : paramsOfNumbers u = some p ↔
    byteOfNumber u.unit = some p.unit ∧ byteOfNumber u.fc = some p.fc ∧ fieldOfNumber u.addr = some p.addr ∧
    fieldOfNumber u.qty = some p.qty ∧ fieldOfNumber u.value = some p.value ∧
    convertAll bitOfNumber u.coils = some p.coils ∧ convertAll fieldOfNumber u.regs = some p.regs := by
  unfold paramsOfNumbers
  split
  next hunit hfc haddr hqty hvalue hcoils hregs =>
    rw [hunit, hfc, haddr, hqty, hvalue, hcoils, hregs]
    cases p
    simp only [Option.some.injEq, Params.mk.injEq]
  next hmissing =>
    refine ⟨nofun, ?_⟩
    rintro ⟨hunit, hfc, haddr, hqty, hvalue, hcoils, hregs⟩
    exact (hmissing _ _ _ _ _ _ _ hunit hfc haddr hqty hvalue hcoils hregs).elim

/-- A user's numbers are a record exactly if all of them fit (rule R257). -/
theorem paramsOfNumbers_isSome (u : UserParams) : (paramsOfNumbers u).isSome = true ↔ AllFit u := by
  simp only [AllFit, ← byteOfNumber_isSome, ← fieldOfNumber_isSome, ← bitOfNumber_isSome, ← convertAll_isSome]
  simp only [Option.isSome_iff_exists]
  constructor
  · rintro ⟨p, hp⟩
    obtain ⟨hunit, hfc, haddr, hqty, hvalue, hcoils, hregs⟩ := paramsOfNumbers_eq_some.mp hp
    exact ⟨⟨_, hunit⟩, ⟨_, hfc⟩, ⟨_, haddr⟩, ⟨_, hqty⟩, ⟨_, hvalue⟩, ⟨_, hcoils⟩, _, hregs⟩
  · rintro ⟨⟨unit, hunit⟩, ⟨fc, hfc⟩, ⟨addr, haddr⟩, ⟨qty, hqty⟩, ⟨value, hvalue⟩, ⟨coils, hcoils⟩, regs, hregs⟩
    exact ⟨Params.mk unit fc addr qty value coils regs,
      paramsOfNumbers_eq_some.mpr ⟨hunit, hfc, haddr, hqty, hvalue, hcoils, hregs⟩⟩

/-- Settles O60: the record exists exactly if all numbers fit and keeps them; the split of a number out of range
is 0. -/
theorem userNumbersAreConvertedOrRejected : Obligations.UserNumbersAreConvertedOrRejected := by
  intro cmd u s fits allFit
  refine ⟨fun h => ?converted, fun h => ?rejected, fun n hn => ⟨?clamped, ?noField⟩⟩
  case converted =>
    obtain ⟨p, hp⟩ := Option.isSome_iff_exists.mp ((paramsOfNumbers_isSome u).mpr h)
    obtain ⟨hunit, hfc, haddr, hqty, hvalue, hcoils, hregs⟩ := paramsOfNumbers_eq_some.mp hp
    exact ⟨p, issueNumbers_of_some hp s, byteOfNumber_keeps hunit, byteOfNumber_keeps hfc, fieldOfNumber_keeps haddr,
      fieldOfNumber_keeps hqty, fieldOfNumber_keeps hvalue, convertAll_keeps bitOfNumber_keeps hcoils,
      convertAll_keeps fieldOfNumber_keeps hregs⟩
  case rejected =>
    refine issueNumbers_of_none (Option.not_isSome_iff_eq_none.mp ?_) s
    rwa [paramsOfNumbers_isSome]
  case clamped =>
    rw [clampedField, decToHighLowBytes_out_of_range hn]
    rfl
  case noField =>
    rw [← Option.not_isSome_iff_eq_none, fieldOfNumber_isSome]
    rintro ⟨k, hk, hint⟩
    obtain rfl : n = k := HostNumber.int.inj hint
    omega

end Sys2Proof.Machine
end

section
/-! The CRC sees every burst of two bytes (rules R100, R101): two byte steps are sixteen shifts of the register with
both bytes XORed in side by side, and neither a shift nor a later byte step confuses two registers. -/

namespace Sys2Proof.Machine

theorem crcShifts_injective {n : Nat} {r r' : U16} (h : crcShifts n r = crcShifts n r') : r = r' := by
  have hzero : crcShifts n (r ^^^ r') = 0#16 := by rw [crcShifts_xor, h, BitVec.xor_self]
  exact BitVec.xor_eq_zero_iff.mp (crcShifts_eq_zero hzero)

/-- The two bytes of a field do not overlap (rule R71). -/
theorem be16_eq_xor (h l : Byte) : be16 h l = l.setWidth 16 ^^^ (h.setWidth 16 <<< 8) := by
  apply BitVec.eq_of_getLsbD_eq
  intro i hi
  by_cases hlow : i < 8
  · simp [be16, hi, hlow]
  · simp [be16, hi, hlow, BitVec.getLsbD_of_ge l i (by omega)]

/-- A byte in the high half of the register reaches the low half after eight shifts, unchanged. -/
theorem crcShifts_high_byte (y : Byte) : crcShifts 8 (y.setWidth 16 <<< 8) = y.setWidth 16 := by
  rw [crcShifts_of_low_zero 8 _ fun i hi => by simp [hi]]
  apply BitVec.eq_of_getLsbD_eq
  intro i hi
  by_cases hlow : i < 8
  · simp [hi, hlow, show 8 + i < 16 by omega]
  · simp [hi, BitVec.getLsbD_of_ge y i (by omega)]

/-- Two byte steps XOR both bytes into the register at once and then shift it. -/
theorem crcUpdate_crcUpdate (r : U16) (x y : Byte) :
    crcUpdate (crcUpdate r x) y = crcShifts 8 (crcShifts 8 (r ^^^ be16 y x)) := by
  rw [be16_eq_xor, ← BitVec.xor_assoc, crcShifts_xor 8 (r ^^^ _), crcShifts_high_byte]
  rfl

/-- Settles O24: equal CRCs would make the registers after the two bytes equal, and so the two bytes. -/
theorem crcSeesEveryTwoByteBurst : Obligations.CrcSeesEveryTwoByteBurst := by
  intro a c x y x' y' hne hcrc
  have hsplit (u v : Byte) :
      crc16 (a ++ [u, v] ++ c) = c.foldl crcUpdate (crcShifts 8 (crcShifts 8 (crc16 a ^^^ be16 v u))) := by
    rw [crc16_append, crc16_append, ← crcUpdate_crcUpdate]
    rfl
  rw [hsplit, hsplit] at hcrc
  have hfield : be16 y x = be16 y' x' :=
    (BitVec.xor_right_inj _).mp (crcShifts_injective (crcShifts_injective (foldl_crcUpdate_injective c hcrc)))
  have hx : x = x' := by simpa using congrArg lo8 hfield
  have hy : y = y' := by simpa using congrArg hi8 hfield
  exact hne (by rw [hx, hy])

end Sys2Proof.Machine
end
